-- ==== Sys2Proof/Word.lean ====
section
/-!
DEFINITION. The word type and the two field types of the hardware (spec/00_scope.md R6 to R8, R11): every register, memory word and latch field
is one 32-bit word, read as a signed integer where the spec computes with it.
-/

namespace Sys2Proof

/-- A `Word32` of the spec (R8): a 32-bit pattern, read as a signed integer through `BitVec.toInt`. -/
abbrev Word := BitVec 32

/-- A 3-bit register index, the type of the fields A and B (R91). -/
abbrev RegIdx := BitVec 3

/-- The 16-bit field C (R91): a register index for ADD and NAND, a signed offset otherwise. -/
abbrev Field16 := BitVec 16

end Sys2Proof
end

