-- ==== Sys2Proof/Syntax.lean ====
section
/-!
DEFINITION. The instruction set (spec/30_encoding.md R94): one constructor per row of spec/opcode_table.json. Every constructor keeps all the bits of
its word that the opcode does not fix, the ignored ones too, because the decode stage reads the fields A, B and C of every word (R127).
-/

namespace Sys2Proof

/-- The nine rows of the opcode map (R94). `a`, `b` and `c` are the fields A, B and C of R91. -/
inductive Instr where
  /-- ADD (opcode 0, R170): sources `a` and `b`, destination index `c`. -/
  | add (a b : RegIdx) (c : Field16)
  /-- NAND (opcode 1, R171): sources `a` and `b`, destination index `c`. -/
  | nand (a b : RegIdx) (c : Field16)
  /-- LW (opcode 2, R180): destination `a`, base `b`, offset `c`. -/
  | lw (a b : RegIdx) (c : Field16)
  /-- SW (opcode 3, R181): data register `a`, base `b`, offset `c`. -/
  | sw (a b : RegIdx) (c : Field16)
  /-- BEQ (opcode 4, R190): compared registers `a` and `b`, offset `c`. -/
  | beq (a b : RegIdx) (c : Field16)
  /-- JALR (opcode 5, R202): decoded, no effect, all fields ignored. -/
  | jalr (a b : RegIdx) (c : Field16)
  /-- HALT (opcode 6, R200): stops the machine from MEM/WB, all fields ignored. -/
  | halt (a b : RegIdx) (c : Field16)
  /-- NOOP (opcode 7, R201): all fields ignored. -/
  | noop (a b : RegIdx) (c : Field16)
  /-- UNKNOWN (R203): a word whose bits 31:25, kept in `tag`, are not all 0. `op` is its bits 24:22. -/
  | unknown (tag : BitVec 7) (op a b : RegIdx) (c : Field16)
  deriving DecidableEq, Repr

/-- Field A of an instruction (R91). -/
def Instr.fieldA : Instr → RegIdx
  | .add a _ _ => a
  | .nand a _ _ => a
  | .lw a _ _ => a
  | .sw a _ _ => a
  | .beq a _ _ => a
  | .jalr a _ _ => a
  | .halt a _ _ => a
  | .noop a _ _ => a
  | .unknown _ _ a _ _ => a

/-- Field B of an instruction (R91). -/
def Instr.fieldB : Instr → RegIdx
  | .add _ b _ => b
  | .nand _ b _ => b
  | .lw _ b _ => b
  | .sw _ b _ => b
  | .beq _ b _ => b
  | .jalr _ b _ => b
  | .halt _ b _ => b
  | .noop _ b _ => b
  | .unknown _ _ _ b _ => b

/-- Field C of an instruction (R91). -/
def Instr.fieldC : Instr → Field16
  | .add _ _ c => c
  | .nand _ _ c => c
  | .lw _ _ c => c
  | .sw _ _ c => c
  | .beq _ _ c => c
  | .jalr _ _ c => c
  | .halt _ _ c => c
  | .noop _ _ c => c
  | .unknown _ _ _ _ c => c

/-- The opcode classes of R11: what `op(w)` answers. -/
inductive Op where
  | add | nand | lw | sw | beq | jalr | halt | noop | unknown
  deriving DecidableEq, Repr

/-- The opcode class of an instruction. -/
def Instr.op : Instr → Op
  | .add _ _ _ => .add
  | .nand _ _ _ => .nand
  | .lw _ _ _ => .lw
  | .sw _ _ _ => .sw
  | .beq _ _ _ => .beq
  | .jalr _ _ _ => .jalr
  | .halt _ _ _ => .halt
  | .noop _ _ _ => .noop
  | .unknown _ _ _ _ _ => .unknown

end Sys2Proof
end

