-- ==== Sys2Proof/WellFormed.lean ====
section
/-!
DEFINITION. Which terms of `Instr` stand for a word of their own. The field types bound every field, so one check is left: an UNKNOWN word has some
bit of 31:25 set (spec/30_encoding.md R93, R94). An ADD or NAND whose C is above 7 is well formed: R99 says it decodes and faults at writeback.
-/

namespace Sys2Proof

/-- Whether the instruction is the reading of some word: the UNKNOWN row needs bits 31:25 not all 0 (R94). -/
def Instr.wf : Instr → Bool
  | .add _ _ _ => true
  | .nand _ _ _ => true
  | .lw _ _ _ => true
  | .sw _ _ _ => true
  | .beq _ _ _ => true
  | .jalr _ _ _ => true
  | .halt _ _ _ => true
  | .noop _ _ _ => true
  | .unknown tag _ _ _ _ => tag != 0#7

end Sys2Proof
end

