-- ==== Sys2Proof/Decode.lean ====
section
/-!
DEFINITION. The instruction decoder of spec/30_encoding.md (R90 to R99) and, after it, the encoder (R98). Decoding is total on words and rejects
none (R95, R99).
-/

namespace Sys2Proof

/-- `fA(w) = w[21:19]` (R92). -/
def fA (w : Word) : RegIdx := w.extractLsb' 19 3

/-- `fB(w) = w[18:16]` (R92). -/
def fB (w : Word) : RegIdx := w.extractLsb' 16 3

/-- `fC(w) = w[15:0]` (R92). -/
def fC (w : Word) : Field16 := w.extractLsb' 0 16

/-- `w[31:25]`, the bits that must be 0 in a recognised opcode (R91, R93). -/
def tagBits (w : Word) : BitVec 7 := w.extractLsb' 25 7

/-- `w[24:22]`, the opcode field (R91). -/
def opBits (w : Word) : RegIdx := w.extractLsb' 22 3

/-- The decoder (R93, R94): the opcode counts only where bits 31:25 are 0; every other word is UNKNOWN. -/
def decode (w : Word) : Instr :=
  if tagBits w = 0#7 then
    match (opBits w).toNat with
    | 0 => .add (fA w) (fB w) (fC w)
    | 1 => .nand (fA w) (fB w) (fC w)
    | 2 => .lw (fA w) (fB w) (fC w)
    | 3 => .sw (fA w) (fB w) (fC w)
    | 4 => .beq (fA w) (fB w) (fC w)
    | 5 => .jalr (fA w) (fB w) (fC w)
    | 6 => .halt (fA w) (fB w) (fC w)
    | _ => .noop (fA w) (fB w) (fC w)
  else .unknown (tagBits w) (opBits w) (fA w) (fB w) (fC w)

/-- `op(w)` of R11 and R93: the opcode class of a word. -/
def opOf (w : Word) : Op := (decode w).op

/-- A word from its bits 31:25 and its fields: R98's `(opcode<<22) | (a<<19) | (b<<16) | (c & 0xFFFF)`, with bits 31:25 beside it. -/
def pack (tag : BitVec 7) (op a b : RegIdx) (c : Field16) : Word :=
  (tag.setWidth 32 <<< 25) ||| (op.setWidth 32 <<< 22) ||| (a.setWidth 32 <<< 19) ||| (b.setWidth 32 <<< 16) ||| c.setWidth 32

/-- The encoder (R98): the word of an instruction, from the opcode map (R94). -/
def encode : Instr → Word
  | .add a b c => pack 0 0 a b c
  | .nand a b c => pack 0 1 a b c
  | .lw a b c => pack 0 2 a b c
  | .sw a b c => pack 0 3 a b c
  | .beq a b c => pack 0 4 a b c
  | .jalr a b c => pack 0 5 a b c
  | .halt a b c => pack 0 6 a b c
  | .noop a b c => pack 0 7 a b c
  | .unknown tag op a b c => pack tag op a b c

/-- The instruction that the decoder reads from an instruction whose table bits are `w`. Every instruction is one 32-bit word (R90), so a row of more
than 32 bits, or bits that do not fit the row, is none. -/
def decodeTableWord (nbits w : Nat) : Option Instr :=
  if nbits ≤ 32 ∧ w < 2 ^ nbits then some (decode (BitVec.ofNat 32 w)) else none

end Sys2Proof
end

