-- ==== Sys2Proof/Config.lean ====
section
/-!
DEFINITION. The implementation parameters of spec/00_scope.md R6 that have one value. The launch parameters `image` and `init_regs` are arguments of
`Sys2Proof.Machine.resetWith`. The spec leaves no value free, so there is no opaque constant here.
-/

namespace Sys2Proof.Config

/-- `NREGS` (R6, R21): general registers `reg[0]` to `reg[7]`. -/
abbrev numRegs : Nat := 8

/-- `IMEM_WORDS` (R6, R30): the capacity of instruction memory in words. -/
abbrev imemWords : Nat := 65536

/-- `DMEM_WORDS` (R6, R31): the capacity of data memory in words. -/
abbrev dmemWords : Nat := 65536

/-- The reserved no-op word that fills every latch at reset (R6, R38): encode(NOOP, 0, 0, 0). -/
abbrev noopWord : Word := 0x01C00000#32

/-- What a memory word that the image does not list reads as (R66, R251: "keep their zero-initialized value"). -/
abbrev unlistedWord : Word := 0#32

end Sys2Proof.Config
end

