-- ==== Sys2Proof/Machine/State.lean ====
section
/-!
DEFINITION. The state of the CORE (spec/10_state.md R20 to R36) as plain data, its value at reset (R38), and the reasons a step of the model can stop.
-/

namespace Sys2Proof.Machine

/-- The five stages of a cycle (spec/40_pipeline.md R122, R123). `FaultRecord.stage` names IF, MEM or WB with the first, the fourth or the fifth (R221). -/
inductive Stage where
  /-- IF. -/
  | fetch
  /-- ID. -/
  | decode
  /-- EX. -/
  | execute
  /-- MEM. -/
  | memory
  /-- WB. -/
  | writeback
  deriving DecidableEq, Repr

/-- The three fault causes (spec/60_exceptions.md R221). -/
inductive FaultCause where
  /-- FETCH_OOB, code 1: the pc is outside instruction memory. -/
  | fetchOob
  /-- DATA_OOB, code 2: the address of an LW or SW is outside data memory. -/
  | dataOob
  /-- REG_INDEX_OOB, code 3: an ADD or NAND whose field C is above 7. -/
  | regIndexOob
  deriving DecidableEq, Repr

/-- The FaultRecord `(cause, stage, value, instr)` (R221). `value` is a word read as signed; `instr` is none where no word was fetched. -/
structure FaultRecord where
  cause : FaultCause
  stage : Stage
  value : Word
  instr : Option Word
  deriving DecidableEq, Repr

/-- The run status (R20, R29). -/
inductive Status where
  | running
  | halted
  | faulted (rec : FaultRecord)
  deriving DecidableEq, Repr

/-- IF/ID (R32). -/
structure IFID where
  instr : Word
  pc1 : Word
  deriving DecidableEq, Repr

/-- ID/EX (R33). -/
structure IDEX where
  instr : Word
  pc1 : Word
  regA : Word
  regB : Word
  offset : Word
  deriving DecidableEq, Repr

/-- EX/MEM (R34). -/
structure EXMEM where
  instr : Word
  branchTarget : Word
  aluResult : Word
  readReg : Word
  deriving DecidableEq, Repr

/-- MEM/WB (R35). -/
structure MEMWB where
  instr : Word
  writeData : Word
  deriving DecidableEq, Repr

/-- WB/END (R36). -/
structure WBEND where
  instr : Word
  writeData : Word
  deriving DecidableEq, Repr

/-- A memory of 65536 words (R30, R31) as (word address, word) pairs in one canonical form: addresses strictly rising, below 65536, and no listed word
equal to what an unlisted address reads as. The cell is a word and not a byte, because no access of this hardware sees part of a word (R61, R62). -/
abbrev Memory := List (Nat × Word)

/-- The register file (R21, R22): eight words. -/
abbrev RegFile := Vector Word 8

/-- The whole state S (R20), and one field of the model's own, `stage`. -/
structure State where
  /-- The word index of the next instruction to be fetched (R25). -/
  pc : Word
  /-- Instruction memory (R30). -/
  instrmem : Memory
  /-- Data memory (R31). -/
  datamem : Memory
  /-- The general registers (R21). -/
  reg : RegFile
  /-- The latch IF/ID (R32). -/
  ifid : IFID
  /-- The latch ID/EX (R33). -/
  idex : IDEX
  /-- The latch EX/MEM (R34). -/
  exmem : EXMEM
  /-- The latch MEM/WB (R35). -/
  memwb : MEMWB
  /-- The latch WB/END (R36). -/
  wbend : WBEND
  /-- Committed cycles (R28). -/
  cycles : Nat
  /-- Counted fetches (R28, R125). -/
  fetched : Nat
  /-- Retired instructions (R28). -/
  retired : Nat
  /-- Taken branches (R28). -/
  branches : Nat
  /-- Mispredictions, never written (R28, R135). -/
  mispreds : Nat
  /-- The run status (R29). -/
  status : Status
  /-- THE MODEL'S OWN FIELD, not the spec's (DESIGN CHOICE, log entry 1): the stage of the cycle whose part `exec` is asked for. A tick neither reads it
  nor changes it. -/
  stage : Stage
  deriving DecidableEq, Repr

/-- `s` with the model's own field `stage` set: the state `exec` is given when the cycle asks an instruction for its part in that stage. -/
def State.atStage (s : State) (k : Stage) : State := { s with stage := k }

/-- The machine right after `reset` with the empty image and the default `init_regs` (R38, R250): pc 0, every register 0, every latch the NOOP word with
its other fields 0, every counter 0, Running. `resetWith` is reset with any image and registers. -/
def State.reset : State where
  pc := 0
  instrmem := []
  datamem := []
  reg := Vector.replicate 8 0
  ifid := { instr := Config.noopWord, pc1 := 0 }
  idex := { instr := Config.noopWord, pc1 := 0, regA := 0, regB := 0, offset := 0 }
  exmem := { instr := Config.noopWord, branchTarget := 0, aluResult := 0, readReg := 0 }
  memwb := { instr := Config.noopWord, writeData := 0 }
  wbend := { instr := Config.noopWord, writeData := 0 }
  cycles := 0
  fetched := 0
  retired := 0
  branches := 0
  mispreds := 0
  status := .running
  stage := .fetch

/-- Reasons for which the model stops with a fault: there are none. The spec's three faults (R221) are not stops of the model: they are next states whose
status is `Faulted` (R223), and the tick is total (R138). -/
inductive Fault where
  deriving DecidableEq, Repr

/-- Reasons for which the model refuses an instruction. -/
inductive Refusal where
  /-- Raised only by an arm of `exec` whose instruction has no meaning yet; safe, since the model then proves nothing about it. No arm raises it. -/
  | notModelled (mnemonic : String)
  /-- Raised only by the block's `reset` input (`respond`), for an image of more than 65536 words or with a value outside 32 bits: the spec refuses it and
  gives it no reset state (R251). Safe: no instruction and no tick raises it. -/
  | imageRefused
  deriving DecidableEq, Repr

end Sys2Proof.Machine
end

