-- ==== Sys2Proof/Machine/Operands.lean ====
section
/-!
DEFINITION. Operand forms and datapath arithmetic (spec/00_scope.md R8, R9, R11; spec/40_pipeline.md R129, R130; spec/42_loadstore.md R182). Each sum is
taken on the integers and narrowed once, by `wrap32`.
-/

namespace Sys2Proof.Machine

/-- `wrap32` (R8): the word congruent to an integer modulo 2^32. -/
def wrap32 (n : Int) : Word := BitVec.ofInt 32 n

/-- `sext_16` (R9): `c - 65536` if bit 15 of `c` is 1, else `c`. -/
def sext16 (c : Field16) : Word :=
  wrap32 (if c.getLsbD 15 then (c.toNat : Int) - 65536 else (c.toNat : Int))

/-- `zext_16` (R9): `c` unchanged. -/
def zext16 (c : Field16) : Word := c.setWidth 32

/-- Whether a word, read as signed, is an address of instruction memory: `inIM(a)`, `0 <= a <= 65535` (R11, R67). -/
def inIM (a : Word) : Bool := decide (0 ≤ a.toInt) && decide (a.toInt < (Config.imemWords : Int))

/-- Whether a word, read as signed, is an address of data memory: `inDM(a)`, `0 <= a <= 65535` (R11, R67). -/
def inDM (a : Word) : Bool := decide (0 ≤ a.toInt) && decide (a.toInt < (Config.dmemWords : Int))

/-- The one addressing mode (R182): register base plus sign-extended word offset. -/
def effectiveAddress (base offset : Word) : Word := wrap32 (base.toInt + offset.toInt)

/-- The branch-target adder (R129): the branch's address plus one, plus the offset. -/
def branchTargetOf (pc1 offset : Word) : Word := wrap32 (pc1.toInt + offset.toInt)

/-- The pc incrementer (R124, R137). -/
def incPc (pc : Word) : Word := wrap32 (pc.toInt + 1)

/-- ADD's sum (R130, R172). -/
def aluAdd (a b : Word) : Word := wrap32 (a.toInt + b.toInt)

/-- NAND's result (R130, R171). -/
def aluNand (a b : Word) : Word := ~~~(a &&& b)

end Sys2Proof.Machine
end

