-- ==== Sys2Proof/Machine/Flags.lean ====
section
/-!
DEFINITION. The machine has no flags and no condition codes (spec/10_state.md R27). Its one condition is BEQ's equality, carried as 1 or 0 in
`EXMEM.aluResult` and consumed by the memory stage of the same instruction.
-/

namespace Sys2Proof.Machine

/-- BEQ's condition as the execute stage leaves it (R130): 1 if the two registers hold the same word, else 0. -/
def aluEqual (a b : Word) : Word := if a = b then 1 else 0

/-- BEQ's condition as the memory stage reads it (R131): taken if the result is not 0. -/
def branchTaken (aluResult : Word) : Bool := aluResult != 0

end Sys2Proof.Machine
end

