-- ==== Sys2Proof/Machine/Ops.lean ====
section
/-!
DEFINITION. The operations the meanings share: the two memories and the register file (spec/20_memory.md, spec/10_state.md), the machine's control signals
(spec/40_pipeline.md R137), raising a fault and halting (spec/60_exceptions.md R221, R223; R121), the part of a cycle that each stage computes (R124 to
R133), and the commit (R134). Nothing returns from a fault: only reset leaves a stopped status (R228).
-/

namespace Sys2Proof.Machine

/-! ### Memory -/

/-- The word at an address (R64). An unlisted address reads as 0 (R66). -/
def Memory.read : Memory → Nat → Word
  | [], _ => Config.unlistedWord
  | (k, v) :: rest, a => if a = k then v else Memory.read rest a

/-- Memory with the word at `a` set to `v`, in canonical form. -/
def Memory.put : Memory → Nat → Word → Memory
  | [], a, v => if v = Config.unlistedWord then [] else [(a, v)]
  | (k, u) :: rest, a, v =>
    if a < k then (if v = Config.unlistedWord then (k, u) :: rest else (a, v) :: (k, u) :: rest)
    else if a = k then (if v = Config.unlistedWord then rest else (a, v) :: rest)
    else (k, u) :: Memory.put rest a v

/-- A write of one whole word (R64). Addresses past the memory's end do not exist, so a write there changes nothing; the stages never ask for one, since
they fault first (R67). -/
def Memory.write (m : Memory) (a : Nat) (v : Word) : Memory :=
  if a < Config.dmemWords then Memory.put m a v else m

/-- The canonical form, for addresses from `lo` on. -/
def Memory.wfFrom : Nat → Memory → Bool
  | _, [] => true
  | lo, (k, v) :: rest =>
    decide (lo ≤ k) && decide (k < Config.dmemWords) && (v != Config.unlistedWord) && Memory.wfFrom (k + 1) rest

/-- The canonical form of a memory: addresses strictly rising and below 65536, no word listed that an unlisted address would read as. -/
def Memory.wf (m : Memory) : Bool := Memory.wfFrom 0 m

/-- The words of an image placed at consecutive addresses from `a` on (R251). -/
def Memory.ofWordsFrom : Nat → List Word → Memory
  | _, [] => []
  | a, w :: ws => if w = Config.unlistedWord then Memory.ofWordsFrom (a + 1) ws else (a, w) :: Memory.ofWordsFrom (a + 1) ws

/-- The memory an image fills: word i at address i, 0 past the image (R251, R66). -/
def Memory.ofWords (ws : List Word) : Memory := Memory.ofWordsFrom 0 ws

/-! ### Registers -/

/-- A read port of the register file (R23): a 3-bit index never goes out of range (R127). -/
def regRead (r : RegFile) (i : RegIdx) : Word := r[i.toNat]'(i.isLt)

/-- The write port of the register file (R23). No register is hard-wired (R21). -/
def regWrite (r : RegFile) (i : RegIdx) (v : Word) : RegFile := r.set i.toNat v i.isLt

/-! ### Control signals (R137) -/

/-- `op(w) == HALT`. -/
def isHalt (w : Word) : Bool := opOf w == .halt

/-- Halt detect (R121): HALT's opcode is in MEM/WB. -/
def haltDetect (s : State) : Bool := isHalt s.memwb.instr

/-- HALT's opcode is in IF/ID, ID/EX, EX/MEM or MEM/WB: the negation of the fetch-count enable (R125). -/
def haltInFlight (s : State) : Bool :=
  isHalt s.ifid.instr || isHalt s.idex.instr || isHalt s.exmem.instr || isHalt s.memwb.instr

/-- `br_taken`: a BEQ in EX/MEM with a result other than 0. -/
def brTaken (s : State) : Bool := (opOf s.exmem.instr == .beq) && branchTaken s.exmem.aluResult

/-! ### Faults and the halt -/

/-- The spec's own code of a fault cause (R221). -/
def FaultCause.code : FaultCause → Nat
  | .fetchOob => 1
  | .dataOob => 2
  | .regIndexOob => 3

/-- Raising a fault, the one operation for all three: nothing of the cycle is committed and the status becomes `Faulted` (R223). No register saves anything
and control goes to no handler (R227). -/
def raiseFault (s : State) (cause : FaultCause) (stage : Stage) (value : Word) (instr : Option Word) : State :=
  { s with status := .faulted { cause := cause, stage := stage, value := value, instr := instr } }

/-- The halt (R121): `retired` counts once more and the status becomes Halted; nothing else changes. -/
def haltMachine (s : State) : State := { s with retired := s.retired + 1, status := .halted }

/-! ### The part of a cycle each stage computes

Each takes the state S at the start of the cycle and answers S with the overrides of that stage alone (R122). -/

/-- Fetch (R124, R125), the same for every word. -/
def fetchStage (s : State) : State :=
  if inIM s.pc then
    { s with
      ifid := { instr := s.instrmem.read s.pc.toNat, pc1 := incPc s.pc }
      pc := incPc s.pc
      fetched := if haltInFlight s then s.fetched else s.fetched + 1 }
  else raiseFault s .fetchOob .fetch s.pc none

/-- Decode (R127, R128): the registers and the offset are read from S, by the fields of the instruction in IF/ID. -/
def decodeStage (a b : RegIdx) (c : Field16) (s : State) : State :=
  { s with
    idex :=
      { instr := s.ifid.instr, pc1 := s.ifid.pc1, regA := regRead s.reg a, regB := regRead s.reg b, offset := sext16 c } }

/-- Execute (R129) with the ALU result of the instruction in ID/EX. -/
def executeStage (aluResult : Word) (s : State) : State :=
  { s with
    exmem :=
      { instr := s.idex.instr, branchTarget := branchTargetOf s.idex.pc1 s.idex.offset, aluResult := aluResult,
        readReg := s.idex.regA } }

/-- The memory stage of an instruction that hands `v` to writeback (R131). -/
def memoryPass (v : Word) (s : State) : State :=
  { s with memwb := { instr := s.exmem.instr, writeData := v } }

/-- The memory stage's instruction copy alone: `MEMWB.writeData` keeps its value (R131, R132). -/
def memoryHold (s : State) : State :=
  { s with memwb := { instr := s.exmem.instr, writeData := s.memwb.writeData } }

/-- The memory stage of a load (R131): the word at the effective address, or DATA_OOB. -/
def memoryLoad (s : State) : State :=
  if inDM s.exmem.aluResult then memoryPass (s.datamem.read s.exmem.aluResult.toNat) s
  else raiseFault s .dataOob .memory s.exmem.aluResult (some s.exmem.instr)

/-- The memory stage of a store (R131, R132): the word in `EXMEM.readReg` goes to the effective address, or DATA_OOB. -/
def memoryStore (s : State) : State :=
  if inDM s.exmem.aluResult then
    { memoryHold s with datamem := s.datamem.write s.exmem.aluResult.toNat s.exmem.readReg }
  else raiseFault s .dataOob .memory s.exmem.aluResult (some s.exmem.instr)

/-- The memory stage of a branch (R131, R132): a result other than 0 sets the pc and is counted. -/
def memoryBranch (s : State) : State :=
  if branchTaken s.exmem.aluResult then
    { memoryHold s with pc := s.exmem.branchTarget, branches := s.branches + 1 }
  else memoryHold s

/-- Writeback's copy into WB/END, which every instruction makes (R133). -/
def writebackCopy (s : State) : State :=
  { s with wbend := { instr := s.memwb.instr, writeData := s.memwb.writeData } }

/-- Writeback of an instruction that retires and writes no register (R133). -/
def writebackRetire (s : State) : State := { writebackCopy s with retired := s.retired + 1 }

/-- Writeback of an instruction that retires and writes `MEMWB.writeData` to a register (R133). -/
def writebackReg (i : RegIdx) (s : State) : State :=
  { writebackRetire s with reg := regWrite s.reg i s.memwb.writeData }

/-- Writeback to the register that the 16-bit field C names, or REG_INDEX_OOB where no register has that index (R133, R221). -/
def writebackIndex (c : Field16) (s : State) : State :=
  if c.toNat < Config.numRegs then writebackReg (c.setWidth 3) s
  else raiseFault s .regIndexOob .writeback (zext16 c) (some s.memwb.instr)

/-! ### Commit (R134) -/

/-- The fault that a stage's part of the cycle raised, if it raised one. -/
def faultOf (t : State) : Option FaultRecord :=
  match t.status with
  | .faulted r => some r
  | .running => none
  | .halted => none

/-- The fault of the oldest instruction that raised one: writeback before memory before fetch (R134, R224). -/
def oldestFault (w m f : State) : Option FaultRecord :=
  match faultOf w with
  | some r => some r
  | none =>
    match faultOf m with
    | some r => some r
    | none => faultOf f

/-- The next-pc multiplexer (R123, R137): a taken branch in the memory stage wins over fetch. -/
def nextPc (s f m : State) : Word := if brTaken s then m.pc else f.pc

/-- Commit or fault (R134), from the parts of the cycle that the five stages computed from `s`: `f` fetch, `d` decode, `x` execute, `m` memory, `w`
writeback. Each field of the next state comes from the one stage that writes it. -/
def commit (s f d x m w : State) : State :=
  match oldestFault w m f with
  | some r => { s with status := .faulted r }
  | none =>
    { pc := nextPc s f m
      instrmem := s.instrmem
      datamem := m.datamem
      reg := w.reg
      ifid := f.ifid
      idex := d.idex
      exmem := x.exmem
      memwb := m.memwb
      wbend := w.wbend
      cycles := s.cycles + 1
      fetched := f.fetched
      retired := w.retired
      branches := m.branches
      mispreds := s.mispreds
      status := s.status
      stage := s.stage }

/-- What an outcome's next state holds, handed on to what follows it; a fault or a refusal ends there. -/
def andThen {σ τ : Type} (o : Host.Outcome σ Fault Refusal) (f : σ → Host.Outcome τ Fault Refusal) :
    Host.Outcome τ Fault Refusal :=
  match o with
  | .next t => f t
  | .fault r => .fault r
  | .refused r => .refused r

end Sys2Proof.Machine
end

