-- ==== Sys2Proof/Machine/Alu.lean ====
section
/-!
DEFINITION. The meanings of ADD and NAND (spec/41_alu.md R170, R171). A meaning answers what the instruction does in the stage `s.stage`, from the state S at
the start of the cycle: S with that stage's overrides (log entry 1).
-/

namespace Sys2Proof.Machine

/-- ADD (R170): `reg[C] <- wrap32(reg[A] + reg[B])`. -/
def execAdd (a b : RegIdx) (c : Field16) (s : State) : Host.Outcome State Fault Refusal :=
  match s.stage with
  | .fetch => .next (fetchStage s)
  | .decode => .next (decodeStage a b c s)
  | .execute => .next (executeStage (aluAdd s.idex.regA s.idex.regB) s)
  | .memory => .next (memoryPass s.exmem.aluResult s)
  | .writeback => .next (writebackIndex c s)

/-- NAND (R171): `reg[C] <- ~(reg[A] & reg[B])`. -/
def execNand (a b : RegIdx) (c : Field16) (s : State) : Host.Outcome State Fault Refusal :=
  match s.stage with
  | .fetch => .next (fetchStage s)
  | .decode => .next (decodeStage a b c s)
  | .execute => .next (executeStage (aluNand s.idex.regA s.idex.regB) s)
  | .memory => .next (memoryPass s.exmem.aluResult s)
  | .writeback => .next (writebackIndex c s)

end Sys2Proof.Machine
end

