-- ==== Sys2Proof/Machine/Branch.lean ====
section
/-!
DEFINITION. The meaning of BEQ (spec/43_branch.md R190), the only control transfer (R193). A meaning answers what the instruction does in the stage `s.stage`
(log entry 1).
-/

namespace Sys2Proof.Machine

/-- BEQ (R190): if `reg[A] == reg[B]` then `pc <- (address + 1) + off`, in the memory stage. -/
def execBeq (a b : RegIdx) (c : Field16) (s : State) : Host.Outcome State Fault Refusal :=
  match s.stage with
  | .fetch => .next (fetchStage s)
  | .decode => .next (decodeStage a b c s)
  | .execute => .next (executeStage (aluEqual s.idex.regA s.idex.regB) s)
  | .memory => .next (memoryBranch s)
  | .writeback => .next (writebackRetire s)

end Sys2Proof.Machine
end

