-- ==== Sys2Proof/Machine/Control.lean ====
section
/-!
DEFINITION. The meanings of JALR, HALT, NOOP and the UNKNOWN words (spec/44_control.md R200 to R203). A meaning answers what the instruction does in the stage
`s.stage` (log entry 1).
-/

namespace Sys2Proof.Machine

/-- JALR (R202): decoded, and has no effect; it does not link, jump or retire. -/
def execJalr (a b : RegIdx) (c : Field16) (s : State) : Host.Outcome State Fault Refusal :=
  match s.stage with
  | .fetch => .next (fetchStage s)
  | .decode => .next (decodeStage a b c s)
  | .execute => .next (executeStage 0 s)
  | .memory => .next (memoryPass 0 s)
  | .writeback => .next (writebackCopy s)

/-- HALT (R200): like any word down to MEM/WB; there it stops the machine before any cycle body runs (R121). R133's arm for HALT at writeback is never
reached, so the writeback place holds the halt (log entry 5). -/
def execHalt (a b : RegIdx) (c : Field16) (s : State) : Host.Outcome State Fault Refusal :=
  match s.stage with
  | .fetch => .next (fetchStage s)
  | .decode => .next (decodeStage a b c s)
  | .execute => .next (executeStage 0 s)
  | .memory => .next (memoryPass 0 s)
  | .writeback => .next (haltMachine s)

/-- NOOP (R201): no register write, no retirement. -/
def execNoop (a b : RegIdx) (c : Field16) (s : State) : Host.Outcome State Fault Refusal :=
  match s.stage with
  | .fetch => .next (fetchStage s)
  | .decode => .next (decodeStage a b c s)
  | .execute => .next (executeStage 0 s)
  | .memory => .next (memoryPass 0 s)
  | .writeback => .next (writebackCopy s)

/-- An UNKNOWN word (R203): passes through the pipeline like NOOP and does not trap. -/
def execUnknown (a b : RegIdx) (c : Field16) (s : State) : Host.Outcome State Fault Refusal :=
  match s.stage with
  | .fetch => .next (fetchStage s)
  | .decode => .next (decodeStage a b c s)
  | .execute => .next (executeStage 0 s)
  | .memory => .next (memoryPass 0 s)
  | .writeback => .next (writebackCopy s)

end Sys2Proof.Machine
end

