-- ==== Sys2Proof/Machine/LoadStore.lean ====
section
/-!
DEFINITION. The meanings of LW and SW (spec/42_loadstore.md R180, R181). A meaning answers what the instruction does in the stage `s.stage` (log entry 1).
-/

namespace Sys2Proof.Machine

/-- LW (R180): `reg[A] <- datamem[wrap32(reg[B] + off)]`. -/
def execLw (a b : RegIdx) (c : Field16) (s : State) : Host.Outcome State Fault Refusal :=
  match s.stage with
  | .fetch => .next (fetchStage s)
  | .decode => .next (decodeStage a b c s)
  | .execute => .next (executeStage (effectiveAddress s.idex.regB s.idex.offset) s)
  | .memory => .next (memoryLoad s)
  | .writeback => .next (writebackReg a s)

/-- SW (R181): `datamem[wrap32(reg[B] + off)] <- reg[A]`. -/
def execSw (a b : RegIdx) (c : Field16) (s : State) : Host.Outcome State Fault Refusal :=
  match s.stage with
  | .fetch => .next (fetchStage s)
  | .decode => .next (decodeStage a b c s)
  | .execute => .next (executeStage (effectiveAddress s.idex.regB s.idex.offset) s)
  | .memory => .next (memoryStore s)
  | .writeback => .next (writebackRetire s)

end Sys2Proof.Machine
end

