-- ==== Sys2Proof/Machine/Dispatch.lean ====
section
/-!
DEFINITION. One arm per constructor of Instr: exec i s is what the instruction i does in the stage s.stage of a cycle that starts in s (log entry 1).
-/

namespace Sys2Proof.Machine

def exec (i : Instr) (s : State) : Host.Outcome State Fault Refusal :=
  match i with
  | .add a b c => Sys2Proof.Machine.execAdd a b c s
  | .nand a b c => Sys2Proof.Machine.execNand a b c s
  | .lw a b c => Sys2Proof.Machine.execLw a b c s
  | .sw a b c => Sys2Proof.Machine.execSw a b c s
  | .beq a b c => Sys2Proof.Machine.execBeq a b c s
  | .jalr a b c => Sys2Proof.Machine.execJalr a b c s
  | .halt a b c => Sys2Proof.Machine.execHalt a b c s
  | .noop a b c => Sys2Proof.Machine.execNoop a b c s
  | .unknown _ _ a b c => Sys2Proof.Machine.execUnknown a b c s

end Sys2Proof.Machine
end

