-- ==== Sys2Proof/Machine/Cycle.lean ====
section
/-!
DEFINITION. One tick of the block (spec/40_pipeline.md R120 to R134): the halt check, then the cycle. The cycle asks each of the five instructions in the
pipeline for its part, all from the same state S (R122), and commits.
-/

namespace Sys2Proof.Machine

/-- What the instruction in the word `w` does in stage `k` of the cycle that starts in `s`. -/
def stagePart (k : Stage) (w : Word) (s : State) : Host.Outcome State Fault Refusal :=
  exec (decode w) (s.atStage k)

/-- The fetch part of the cycle: the word at the pc is the instruction in the fetch stage. Outside instruction memory no word is fetched and the stage
raises FETCH_OOB (R124, R221). -/
def fetchPart (s : State) : Host.Outcome State Fault Refusal :=
  if inIM s.pc then stagePart .fetch (s.instrmem.read s.pc.toNat) s else .next (fetchStage (s.atStage .fetch))

/-- One cycle (R122 to R134). -/
def cycle (s : State) : Host.Outcome State Fault Refusal :=
  andThen (fetchPart s) fun f =>
  andThen (stagePart .decode s.ifid.instr s) fun d =>
  andThen (stagePart .execute s.idex.instr s) fun x =>
  andThen (stagePart .memory s.exmem.instr s) fun m =>
  andThen (stagePart .writeback s.memwb.instr s) fun w =>
  .next (commit s f d x m w)

/-- The halt check's tick (R121): the HALT in MEM/WB stops the machine, and no cycle body runs. -/
def haltTick (s : State) : Host.Outcome State Fault Refusal :=
  andThen (stagePart .writeback s.memwb.instr s) fun t => .next (t.atStage s.stage)

/-- One tick (R120): a stopped machine does not change; a running one halts or runs one cycle. -/
def tick (s : State) : Host.Outcome State Fault Refusal :=
  match s.status with
  | .running => if haltDetect s then haltTick s else cycle s
  | .halted => .next s
  | .faulted _ => .next s

end Sys2Proof.Machine
end

