-- ==== Sys2Proof/Machine/Step.lean ====
section
/-!
DEFINITION. The machine's step: one tick (spec/40_pipeline.md R120, spec/92_eei_decisions.md D17). And where a word must stand for the next step to fetch it.
-/

namespace Sys2Proof.Machine

/-- One step is one tick. -/
def step (s : State) : Host.Outcome State Fault Refusal := tick s

/-- `s` with the one-word instruction whose bits are `w` in instruction memory at the pc, where the next tick's fetch reads (R124). It stands for the image
that reset loads from outside the machine (log entry 3). At a pc outside instruction memory there is no word to fetch and nothing changes. -/
def State.withFetchWord (s : State) (_nbits w : Nat) : State :=
  if inIM s.pc then { s with instrmem := s.instrmem.write s.pc.toNat (BitVec.ofNat 32 w) } else s

end Sys2Proof.Machine
end

