-- ==== Sys2Proof/Machine/Assembly.lean ====
section
/-!
DEFINITION. The assembly notation of spec/30_encoding.md R100 and R101: one line of it is one word, `.fill` is the only directive and there are no
pseudo-instructions. The assembler refuses a register number outside 0..7, an offset outside -32768..32767 and a `.fill` value outside the Word32 range.
-/

namespace Sys2Proof.Machine

/-- A line of the notation, with the numbers as they are written. -/
inductive AsmLine where
  | add (a b c : Nat)
  | nand (a b c : Nat)
  | lw (a b : Nat) (off : Int)
  | sw (a b : Nat) (off : Int)
  | beq (a b : Nat) (off : Int)
  | jalr (a b : Nat)
  | halt
  | noop
  | fill (n : Int)
  deriving DecidableEq, Repr

/-- A register number 0..7 as the 3-bit field. -/
def asmReg (n : Nat) : Option RegIdx := if n < Config.numRegs then some (BitVec.ofNat 3 n) else none

/-- An offset -32768..32767 as the 16-bit field: `off & 0xFFFF`. -/
def asmOffset (n : Int) : Option Field16 :=
  if -32768 ≤ n ∧ n ≤ 32767 then some (BitVec.ofInt 16 n) else none

/-- The word of `opcode A B C` for a field C already made, or none where A or B is no register number. -/
def asmFields (op : RegIdx) (a b : Nat) (c : Option Field16) : Option Word :=
  match asmReg a, asmReg b, c with
  | some ra, some rb, some fc => some (pack 0 op ra rb fc)
  | _, _, _ => none

/-- The word of a line (R100), or none where the assembler refuses the line. -/
def assemble : AsmLine → Option Word
  | .add a b c => asmFields 0 a b ((asmReg c).map (BitVec.setWidth 16))
  | .nand a b c => asmFields 1 a b ((asmReg c).map (BitVec.setWidth 16))
  | .lw a b off => asmFields 2 a b (asmOffset off)
  | .sw a b off => asmFields 3 a b (asmOffset off)
  | .beq a b off => asmFields 4 a b (asmOffset off)
  | .jalr a b => asmFields 5 a b (some 0)
  | .halt => some (pack 0 6 0 0 0)
  | .noop => some (pack 0 7 0 0 0)
  | .fill n => if -2147483648 ≤ n ∧ n ≤ 2147483647 then some (wrap32 n) else none

end Sys2Proof.Machine
end

