-- ==== Sys2Proof/Machine/Listing.lean ====
section
/-!
DEFINITION. The tick in one listing (spec/40_pipeline.md R139), transcribed as it stands: on raw words, with the source's shift-and-mask fields (R91), the
source's `word >> 22` as the opcode (R93), overrides applied one after another to S' (R123), and a list of raised faults. No definition of `step` uses this file: it is the
second reading that the statement `StepEqualsTheListing` holds the step against.
-/

namespace Sys2Proof.Machine.Listing

/-- The opcode class of a word by the source's formula (R93): `word >> 22` compared with 0 to 7. -/
def op (w : Word) : Op :=
  match (w >>> 22).toNat with
  | 0 => .add
  | 1 => .nand
  | 2 => .lw
  | 3 => .sw
  | 4 => .beq
  | 5 => .jalr
  | 6 => .halt
  | 7 => .noop
  | _ => .unknown

/-- The mask of a row of the opcode map (R94). -/
def rowMask : Op → Word
  | .unknown => 0xFE000000#32
  | .add => 0xFFC00000#32
  | .nand => 0xFFC00000#32
  | .lw => 0xFFC00000#32
  | .sw => 0xFFC00000#32
  | .beq => 0xFFC00000#32
  | .jalr => 0xFFC00000#32
  | .halt => 0xFFC00000#32
  | .noop => 0xFFC00000#32

/-- Whether a word is in a row of the opcode map (R94): `w & mask == match`, or, for UNKNOWN, any value other than 0. -/
def rowMatches (k : Op) (w : Word) : Bool :=
  match k with
  | .add => w &&& rowMask .add == 0x00000000#32
  | .nand => w &&& rowMask .nand == 0x00400000#32
  | .lw => w &&& rowMask .lw == 0x00800000#32
  | .sw => w &&& rowMask .sw == 0x00C00000#32
  | .beq => w &&& rowMask .beq == 0x01000000#32
  | .jalr => w &&& rowMask .jalr == 0x01400000#32
  | .halt => w &&& rowMask .halt == 0x01800000#32
  | .noop => w &&& rowMask .noop == 0x01C00000#32
  | .unknown => w &&& rowMask .unknown != 0x00000000#32

/-- `fieldA = (word >> 19) & 0x7` (R91). -/
def fieldA (w : Word) : Nat := ((w >>> 19) &&& 7#32).toNat

/-- `fieldB = (word >> 16) & 0x7` (R91). -/
def fieldB (w : Word) : Nat := ((w >>> 16) &&& 7#32).toNat

/-- `fieldC = word & 0xFFFF` (R91). -/
def fieldC (w : Word) : Nat := (w &&& 0xFFFF#32).toNat

/-- `signExtend16` (R9): "if bit 15 is set, subtract 2^16". -/
def signExtend16 (c : Nat) : Int := if 32768 ≤ c then (c : Int) - 65536 else (c : Int)

/-- `reg[i]`, 0 where there is no such register (the listing never asks for one). -/
def regAt (r : RegFile) (i : Nat) : Word := r.toList.getD i 0

/-- `reg[i] <- v`. -/
def setReg (r : RegFile) (i : Nat) (v : Word) : RegFile := if h : i < 8 then r.set i v h else r

/-- `0 <= a <= 65535`. -/
abbrev inRange (a : Word) : Prop := 0 ≤ a.toInt ∧ a.toInt ≤ 65535

/-- `alu` (R130). -/
def alu (k : Op) (a b o : Word) : Word :=
  match k with
  | .add => wrap32 (a.toInt + b.toInt)
  | .nand => ~~~(a &&& b)
  | .lw => wrap32 (b.toInt + o.toInt)
  | .sw => wrap32 (b.toInt + o.toInt)
  | .beq => if a.toInt = b.toInt then 1 else 0
  | .jalr => 0
  | .halt => 0
  | .noop => 0
  | .unknown => 0

/-- HALT's opcode is in one of the four latches (R125). -/
abbrev haltThere (s : State) : Prop :=
  op s.ifid.instr = .halt ∨ op s.idex.instr = .halt ∨ op s.exmem.instr = .halt ∨ op s.memwb.instr = .halt

/-- Fetch (R124, R125): S' with its overrides, and the fault it raises. -/
def fetch (s s' : State) : State × List FaultRecord :=
  if inRange s.pc then
    let t := { s' with
      ifid := { instr := s.instrmem.read s.pc.toNat, pc1 := wrap32 (s.pc.toInt + 1) }, pc := wrap32 (s.pc.toInt + 1) }
    (if haltThere s then t else { t with fetched := s.fetched + 1 }, [])
  else (s', [{ cause := .fetchOob, stage := .fetch, value := s.pc, instr := none }])

/-- Decode (R127). -/
def decode (s s' : State) : State :=
  let w := s.ifid.instr
  { s' with
    idex :=
      { instr := w, pc1 := s.ifid.pc1, regA := regAt s.reg (fieldA w), regB := regAt s.reg (fieldB w),
        offset := wrap32 (signExtend16 (fieldC w)) } }

/-- Execute (R129, R130). -/
def execute (s s' : State) : State :=
  let d := s.idex
  { s' with
    exmem :=
      { instr := d.instr, branchTarget := wrap32 (d.pc1.toInt + d.offset.toInt),
        aluResult := alu (op d.instr) d.regA d.regB d.offset, readReg := d.regA } }

/-- `S'.MEMWB.writeData <- v`. -/
def setWriteData (s' : State) (v : Word) : State := { s' with memwb := { s'.memwb with writeData := v } }

/-- Memory (R131, R132). -/
def memory (s s' : State) : State × List FaultRecord :=
  let e := s.exmem
  let t : State := { s' with memwb := { s'.memwb with instr := e.instr } }
  let bad : List FaultRecord := [{ cause := .dataOob, stage := .memory, value := e.aluResult, instr := some e.instr }]
  match op e.instr with
  | .add => (setWriteData t e.aluResult, [])
  | .nand => (setWriteData t e.aluResult, [])
  | .lw => if inRange e.aluResult then (setWriteData t (s.datamem.read e.aluResult.toNat), []) else (t, bad)
  | .sw => if inRange e.aluResult then ({ t with datamem := s.datamem.write e.aluResult.toNat e.readReg }, []) else (t, bad)
  | .beq => if e.aluResult.toInt ≠ 0 then ({ t with pc := e.branchTarget, branches := s.branches + 1 }, []) else (t, [])
  | .jalr => (setWriteData t 0, [])
  | .halt => (setWriteData t 0, [])
  | .noop => (setWriteData t 0, [])
  | .unknown => (setWriteData t 0, [])

/-- Writeback (R133). -/
def writeback (s s' : State) : State × List FaultRecord :=
  let m := s.memwb
  let t : State := { s' with wbend := { instr := m.instr, writeData := m.writeData } }
  let index : State × List FaultRecord :=
    if fieldC m.instr ≤ 7 then ({ t with reg := setReg s.reg (fieldC m.instr) m.writeData, retired := s.retired + 1 }, [])
    else (t, [{ cause := .regIndexOob, stage := .writeback, value := BitVec.ofNat 32 (fieldC m.instr), instr := some m.instr }])
  match op m.instr with
  | .add => index
  | .nand => index
  | .lw => ({ t with reg := setReg s.reg (fieldA m.instr) m.writeData, retired := s.retired + 1 }, [])
  | .sw => ({ t with retired := s.retired + 1 }, [])
  | .beq => ({ t with retired := s.retired + 1 }, [])
  | .jalr => (t, [])
  | .halt => (t, [])
  | .noop => (t, [])
  | .unknown => (t, [])

/-- The cycle: S' starts as a copy of S, the stages override it in order, and it is committed or the oldest fault is reported (R122, R123, R134). -/
def cycle (s : State) : State :=
  let f := fetch s s
  let m := memory s (execute s (decode s f.1))
  let w := writeback s m.1
  match w.2 ++ m.2 ++ f.2 with
  | r :: _ => { s with status := .faulted r }
  | [] => { w.1 with cycles := s.cycles + 1 }

/-- The tick of R139. -/
def tick (s : State) : State :=
  if s.status ≠ .running then s
  else if op s.memwb.instr = .halt then { s with retired := s.retired + 1, status := .halted }
  else cycle s

end Sys2Proof.Machine.Listing
end

