-- ==== Sys2Proof/Machine/Interface.lean ====
section
/-!
DEFINITION. The block's abstract interface (spec/10_state.md R39 to R41; spec/70_reset_and_hazards.md R250, R251): the inputs `reset(image, init_regs)` and
`tick`, the outputs `status` and `view`, and `nummemory`, which reset takes from its image.
-/

namespace Sys2Proof.Machine

/-- Whether an image value is a Word32: -2^31 to 2^31 - 1 (R251). -/
def imageValueOk (n : Int) : Bool := decide (-2147483648 ≤ n) && decide (n ≤ 2147483647)

/-- Whether the loader takes an image (R251): at most 65536 words, each a Word32. The third refused kind, a line that is not a decimal integer, is a matter
of parsing the file, which is out of scope. -/
def imageOk (image : List Int) : Bool := decide (image.length ≤ Config.imemWords) && image.all imageValueOk

/-- `reset(image, init_regs)` (R38, R250): both memories hold the image, the registers hold `init_regs`, and all else is as in `State.reset`. None for an
image the loader refuses. -/
def resetWith (image : List Int) (initRegs : RegFile) : Option State :=
  if imageOk image then
    some
      { State.reset with
        instrmem := Memory.ofWords (image.map wrap32), datamem := Memory.ofWords (image.map wrap32), reg := initRegs }
  else none

/-- The inputs of the block (R39). -/
inductive Input where
  /-- Replace the whole state, in any status (R250). -/
  | reset (image : List Int) (initRegs : RegFile)
  /-- One clock edge. -/
  | tick
  deriving DecidableEq, Repr

/-- The block as it stands after a reset: the state S, and `nummemory`, which is a parameter of that reset and no part of S (R41). -/
structure Block where
  /-- The state S (R20). -/
  state : State
  /-- The length of the image of the last reset (R6, R39): the number of lines the loader read (R251). -/
  nummemory : Nat
  deriving DecidableEq, Repr

/-- The block that `reset(image, init_regs)` makes (R39, R250): the reset state, and `nummemory = length(image)`. None for an image the loader refuses. -/
def launch (image : List Int) (initRegs : RegFile) : Option Block :=
  (resetWith image initRegs).map fun s => { state := s, nummemory := image.length }

/-- What the block does with an input (R39). Reset takes no tick and reads nothing of the block it replaces (R250); a tick neither reads nor changes
`nummemory` (R41). -/
def respond (b : Block) : Input → Host.Outcome Block Fault Refusal
  | .reset image initRegs =>
    match launch image initRegs with
    | some b' => .next b'
    | none => .refused .imageRefused
  | .tick => andThen (step b.state) fun t => .next { state := t, nummemory := b.nummemory }

/-- What the block does with inputs given one after another. -/
def respondAll : List Input → Block → Host.Outcome Block Fault Refusal
  | [], b => .next b
  | i :: rest, b => andThen (respond b i) (respondAll rest)

/-- The output `view` (R39, R40): a copy of the whole state S, and `nummemory`. -/
structure View where
  state : State
  nummemory : Nat
  deriving DecidableEq, Repr

/-- Reading `view` (R40): it shows the block's state and the `nummemory` of its last reset, and changes nothing. -/
def view (b : Block) : View := { state := b.state, nummemory := b.nummemory }

/-- The output `status` (R39). -/
def statusOut (b : Block) : Status := b.state.status

end Sys2Proof.Machine
end

