-- ==== Sys2Proof/Safety.lean ====
section
/-!
DEFINITION. The terms the statements use: what a word writes and whether it retires, committed cycles and runs of them, safe states, and the invariant of the
machine.
-/

namespace Sys2Proof.Machine

/-! ### What a word does at its stages -/

/-- The register a word writes at writeback (R24): field C for ADD and NAND, where it names a register; field A for LW; none for the others. -/
def destination (w : Word) : Option RegIdx :=
  match opOf w with
  | .add => if (fC w).toNat < 8 then some ((fC w).setWidth 3) else none
  | .nand => if (fC w).toNat < 8 then some ((fC w).setWidth 3) else none
  | .lw => some (fA w)
  | .sw => none
  | .beq => none
  | .jalr => none
  | .halt => none
  | .noop => none
  | .unknown => none

/-- The opcode classes that retire at writeback (R133): ADD, NAND, LW, SW and BEQ. -/
def retires (w : Word) : Bool :=
  match opOf w with
  | .add => true
  | .nand => true
  | .lw => true
  | .sw => true
  | .beq => true
  | .jalr => false
  | .halt => false
  | .noop => false
  | .unknown => false

/-- The word the fetch of `s` reads, where its pc is in range. -/
def fetchedWord (s : State) : Word := s.instrmem.read s.pc.toNat

/-- The SW in EX/MEM stores to address `a` in this cycle. -/
def storesTo (s : State) (a : Word) : Prop := opOf s.exmem.instr = .sw ∧ s.exmem.aluResult = a

/-! ### Runs -/

/-- The tick of `s` is a committed cycle, and `t` is the state it leaves (R134). -/
def Commits (s t : State) : Prop := s.status = .running ∧ step s = .next t ∧ t.cycles = s.cycles + 1

/-- `n` ticks one after another (R262). -/
def ticks : Nat → State → Host.Outcome State Fault Refusal
  | 0, s => .next s
  | n + 1, s => andThen (step s) (ticks n)

/-- `n` committed cycles one after another: `p 0` to `p n`. -/
def CommitPath (n : Nat) (p : Nat → State) : Prop := ∀ k, k < n → Commits (p k) (p (k + 1))

/-- A safe state: the machine has not faulted. -/
def Safe (s : State) : Prop := ∀ r, s.status ≠ .faulted r

/-! ### The invariant -/

/-- The record of a faulted state names a fault that this state raises (R221, R223). -/
def RecordFits (s : State) (r : FaultRecord) : Prop :=
  match r.cause with
  | .fetchOob => r.stage = .fetch ∧ r.value = s.pc ∧ r.instr = none ∧ inIM s.pc = false
  | .dataOob =>
    r.stage = .memory ∧ r.value = s.exmem.aluResult ∧ r.instr = some s.exmem.instr ∧ inDM s.exmem.aluResult = false ∧
      (opOf s.exmem.instr = .lw ∨ opOf s.exmem.instr = .sw)
  | .regIndexOob =>
    r.stage = .writeback ∧ r.value = zext16 (fC s.memwb.instr) ∧ r.instr = some s.memwb.instr ∧
      7 < (fC s.memwb.instr).toNat ∧ (opOf s.memwb.instr = .add ∨ opOf s.memwb.instr = .nand)

/-- What holds in every reachable state. -/
structure Inv (s : State) : Prop where
  /-- Instruction memory is in canonical form. -/
  instrmem_wf : s.instrmem.wf = true
  /-- Data memory is in canonical form. -/
  datamem_wf : s.datamem.wf = true
  /-- `IFID.pc1` is a fetch address plus one, 0 at reset (R32, R129). -/
  ifid_pc1 : 0 ≤ s.ifid.pc1.toInt ∧ s.ifid.pc1.toInt ≤ 65536
  /-- `IDEX.pc1` likewise (R129). -/
  idex_pc1 : 0 ≤ s.idex.pc1.toInt ∧ s.idex.pc1.toInt ≤ 65536
  /-- `IDEX.offset` is the sign-extended field C of the word beside it (R33). -/
  idex_offset : s.idex.offset = sext16 (fC s.idex.instr)
  /-- The branch target never leaves this range (R129, R190). -/
  branch_target : -32768 ≤ s.exmem.branchTarget.toInt ∧ s.exmem.branchTarget.toInt ≤ 98303
  /-- The pc never leaves this range (R25). -/
  pc_range : -32768 ≤ s.pc.toInt ∧ s.pc.toInt ≤ 98303
  /-- A BEQ in EX/MEM carries 1 or 0 (R27). -/
  beq_result : opOf s.exmem.instr = .beq → s.exmem.aluResult = 0 ∨ s.exmem.aluResult = 1
  /-- A word without effect in EX/MEM carries 0 (R130). -/
  exmem_zero : retires s.exmem.instr = false → s.exmem.aluResult = 0
  /-- A word without effect in MEM/WB carries 0 (R131). -/
  memwb_zero : retires s.memwb.instr = false → s.memwb.writeData = 0
  /-- The mispredictions counter is 0 (R135). -/
  mispreds_zero : s.mispreds = 0
  /-- At most one fetch is counted a cycle (R28). -/
  fetched_le : s.fetched ≤ s.cycles
  /-- At most one branch is counted a cycle (R28). -/
  branches_le : s.branches ≤ s.cycles
  /-- At most one instruction retires a cycle, and the halt once more (R28). -/
  retired_le : s.retired ≤ s.cycles + (if s.status = .halted then 1 else 0)
  /-- A halted machine has HALT in MEM/WB (R121). -/
  halted_fits : s.status = .halted → opOf s.memwb.instr = .halt
  /-- A faulted machine's record names a fault its state raises, and no HALT is in MEM/WB (R221, R225). -/
  faulted_fits : ∀ r, s.status = .faulted r → RecordFits s r ∧ opOf s.memwb.instr ≠ .halt

end Sys2Proof.Machine
end

