-- ==== Sys2Proof/Certificates/Slice0/Obligations.lean ====
section
/-!
DEFINITION. The statements for the provers. Each is `def Obligations.<Name> : Prop`; OBLIGATIONS.json says in words what each states and from which rule.
An equation `exec i s = .next (s with …)` is a result, a completion and a frame at once: every field not named in it is unchanged.
-/

open Sys2Proof Sys2Proof.Machine

/-! ## Encoding and decoder -/

/-- R98: decode and encode agree on every well-formed instruction. -/
def Obligations.DecodeEncodeAgree : Prop :=
  ∀ i : Instr, i.wf = true → decode (encode i) = i

/-- R93, R98: every word decodes to a well-formed instruction whose encoding is that word. -/
def Obligations.EncodeDecodeAgree : Prop :=
  ∀ w : Word, (decode w).wf = true ∧ encode (decode w) = w

/-- R95: every word belongs to exactly one row of the opcode map, the decoder answers that row, and it refuses no word. -/
def Obligations.EveryWordInOneOpcodeRow : Prop :=
  ∀ w : Word,
    (∀ k : Op, Listing.rowMatches k w = true ↔ opOf w = k) ∧ (∃! k : Op, Listing.rowMatches k w = true) ∧
      decodeTableWord 32 w.toNat = some (decode w)

/-- R98: the encoder is the source's formula, the fields come back, and a negative C is encoded modulo 65536 and read back as it was. -/
def Obligations.EncodedFieldsComeBack : Prop :=
  ∀ (op a b : RegIdx) (c : Field16),
    (pack 0 op a b c).toNat = (op.toNat <<< 22 ||| a.toNat <<< 19 ||| b.toNat <<< 16 ||| (c.toNat &&& 0xFFFF)) ∧
      (tagBits (pack 0 op a b c) = 0 ∧ opBits (pack 0 op a b c) = op ∧ fA (pack 0 op a b c) = a ∧ fB (pack 0 op a b c) = b ∧
        fC (pack 0 op a b c) = c) ∧
      (∀ n : Int, -32768 ≤ n → n < 0 →
        ((fC (pack 0 op a b (BitVec.ofInt 16 n))).toNat : Int) = n + 65536 ∧
          (sext16 (fC (pack 0 op a b (BitVec.ofInt 16 n)))).toInt = n)

/-- Words of spec/95_test_vectors.md L2.1, one for each family and more, decode to the instructions they stand for. -/
def Obligations.WrittenWordsDecode : Prop :=
  decode 0x00130001#32 = .add 2 3 1 ∧ decode 0x004A0003#32 = .nand 1 2 3 ∧ decode 0x008AFFFF#32 = .lw 1 2 0xFFFF ∧
    decode 0x00C80064#32 = .sw 1 0 100 ∧ decode 0x0100FFFC#32 = .beq 0 0 0xFFFC ∧ decode 0x014A0000#32 = .jalr 1 2 0 ∧
    decode 0x01BFFFFF#32 = .halt 7 7 0xFFFF ∧ decode 0x01C00000#32 = .noop 0 0 0 ∧
    decode 0x03C00000#32 = .unknown 1 7 0 0 0 ∧ decode 0xFFFFFFFF#32 = .unknown 127 7 7 7 0xFFFF

/-- R97, and R9 for every field: `sext_16`. -/
def Obligations.SignExtendsFieldC : Prop :=
  ((sext16 0x0001).toInt = 1 ∧ (sext16 0xFFFF).toInt = -1 ∧ (sext16 0x7FFF).toInt = 32767 ∧ (sext16 0x8000).toInt = -32768) ∧
    ∀ c : Field16,
      ((sext16 c).toInt = if 32768 ≤ c.toNat then (c.toNat : Int) - 65536 else (c.toNat : Int)) ∧
        -32768 ≤ (sext16 c).toInt ∧ (sext16 c).toInt ≤ 32767

/-- R92: the bit slices agree with the source's shift-and-mask forms for every word, with an arithmetic shift too. -/
def Obligations.FieldsAreShiftAndMask : Prop :=
  ∀ w : Word,
    ((fA w).toNat = ((w >>> 19) &&& 7#32).toNat ∧ (fA w).toNat = (w.sshiftRight 19 &&& 7#32).toNat ∧
        (fA w).toNat = w.toNat / 2 ^ 19 % 8) ∧
      ((fB w).toNat = ((w >>> 16) &&& 7#32).toNat ∧ (fB w).toNat = (w.sshiftRight 16 &&& 7#32).toNat ∧
        (fB w).toNat = w.toNat / 2 ^ 16 % 8) ∧
      ((fC w).toNat = (w &&& 0xFFFF#32).toNat ∧ (fC w).toNat = w.toNat % 65536) ∧
      -32768 ≤ (sext16 (fC w)).toInt ∧ (sext16 (fC w)).toInt ≤ 32767

/-- R100: a line the assembler takes is one word, which decodes to the instruction of that line; what it refuses is what R100 lists. -/
def Obligations.AssembledLineDecodes : Prop :=
  (∀ (a b c : Nat), a < 8 → b < 8 → c < 8 →
    (assemble (.add a b c)).map decode = some (.add (BitVec.ofNat 3 a) (BitVec.ofNat 3 b) (BitVec.ofNat 16 c)) ∧
      (assemble (.nand a b c)).map decode = some (.nand (BitVec.ofNat 3 a) (BitVec.ofNat 3 b) (BitVec.ofNat 16 c))) ∧
  (∀ (a b : Nat) (off : Int), a < 8 → b < 8 → -32768 ≤ off → off ≤ 32767 →
    ∃ c : Field16, (sext16 c).toInt = off ∧
      (assemble (.lw a b off)).map decode = some (.lw (BitVec.ofNat 3 a) (BitVec.ofNat 3 b) c) ∧
      (assemble (.sw a b off)).map decode = some (.sw (BitVec.ofNat 3 a) (BitVec.ofNat 3 b) c) ∧
      (assemble (.beq a b off)).map decode = some (.beq (BitVec.ofNat 3 a) (BitVec.ofNat 3 b) c)) ∧
  (∀ (a b : Nat), a < 8 → b < 8 → (assemble (.jalr a b)).map decode = some (.jalr (BitVec.ofNat 3 a) (BitVec.ofNat 3 b) 0)) ∧
  (∀ (a b c : Nat) (off : Int), 8 ≤ a ∨ 8 ≤ b →
    assemble (.add a b c) = none ∧ assemble (.nand a b c) = none ∧ assemble (.lw a b off) = none ∧
      assemble (.sw a b off) = none ∧ assemble (.beq a b off) = none ∧ assemble (.jalr a b) = none) ∧
  (∀ (a b c : Nat), 8 ≤ c → assemble (.add a b c) = none ∧ assemble (.nand a b c) = none) ∧
  (∀ (a b : Nat) (off : Int), off < -32768 ∨ 32767 < off →
    assemble (.lw a b off) = none ∧ assemble (.sw a b off) = none ∧ assemble (.beq a b off) = none) ∧
  (assemble .halt = some 0x01800000#32 ∧ assemble .noop = some 0x01C00000#32) ∧
  (∀ n : Int, -2147483648 ≤ n → n ≤ 2147483647 → (assemble (.fill n)).map BitVec.toInt = some n) ∧
  (∀ n : Int, n < -2147483648 ∨ 2147483647 < n → assemble (.fill n) = none)

/-! ## Arithmetic -/

/-- R172: both sums are taken modulo 2^32, equality is the same for both readings, and `-x = ~x + 1` is built from NAND and ADD. -/
def Obligations.SumsAreModulo32Bits : Prop :=
  ∀ a b : Word,
    ((aluAdd a b).toNat = (a.toNat + b.toNat) % 2 ^ 32 ∧ (aluAdd a b).toInt = (a.toInt + b.toInt).bmod (2 ^ 32)) ∧
      (effectiveAddress a b).toNat = (a.toNat + b.toNat) % 2 ^ 32 ∧ (aluEqual a b = 1 ↔ a.toNat = b.toNat) ∧
      (aluEqual a b = 1 ↔ a.toInt = b.toInt) ∧ aluNand a a = ~~~a ∧ aluAdd b (aluAdd (aluNand a a) 1) = b - a

/-! ## What each instruction does in each stage: result, completion and frame -/

/-- R124, R125: in the fetch stage every instruction does the same, FETCH_OOB included. -/
def Obligations.FetchIsTheSameForEveryInstruction : Prop :=
  ∀ (i : Instr) (s : State), s.stage = .fetch →
    (0 ≤ s.pc.toInt ∧ s.pc.toInt ≤ 65535 →
      exec i s =
        .next
          { s with
            ifid := { instr := s.instrmem.read s.pc.toNat, pc1 := s.pc + 1 }
            pc := s.pc + 1
            fetched :=
              if opOf s.ifid.instr = .halt ∨ opOf s.idex.instr = .halt ∨ opOf s.exmem.instr = .halt ∨ opOf s.memwb.instr = .halt
              then s.fetched else s.fetched + 1 }) ∧
    (s.pc.toInt < 0 ∨ 65535 < s.pc.toInt →
      exec i s = .next { s with status := .faulted { cause := .fetchOob, stage := .fetch, value := s.pc, instr := none } })

/-- R127: in the decode stage every instruction reads the registers of its fields A and B and extends its field C. -/
def Obligations.DecodeIsTheSameForEveryInstruction : Prop :=
  ∀ (i : Instr) (s : State), s.stage = .decode →
    exec i s =
      .next
        { s with
          idex :=
            { instr := s.ifid.instr, pc1 := s.ifid.pc1, regA := regRead s.reg i.fieldA, regB := regRead s.reg i.fieldB,
              offset := sext16 i.fieldC } }

/-- R170: ADD completes in execute, memory and writeback, with the result given. -/
def Obligations.AddCompletes : Prop :=
  ∀ (a b : RegIdx) (c : Field16) (s : State),
    (s.stage = .execute →
      exec (.add a b c) s =
        .next
          { s with
            exmem :=
              { instr := s.idex.instr, branchTarget := s.idex.pc1 + s.idex.offset, aluResult := s.idex.regA + s.idex.regB,
                readReg := s.idex.regA } }) ∧
    (s.stage = .memory →
      exec (.add a b c) s = .next { s with memwb := { instr := s.exmem.instr, writeData := s.exmem.aluResult } }) ∧
    (s.stage = .writeback → ∀ h : c.toNat < 8,
      exec (.add a b c) s =
        .next
          { s with
            wbend := { instr := s.memwb.instr, writeData := s.memwb.writeData }
            reg := s.reg.set c.toNat s.memwb.writeData h
            retired := s.retired + 1 })

/-- R171: NAND completes in execute, memory and writeback, with the result given. -/
def Obligations.NandCompletes : Prop :=
  ∀ (a b : RegIdx) (c : Field16) (s : State),
    (s.stage = .execute →
      exec (.nand a b c) s =
        .next
          { s with
            exmem :=
              { instr := s.idex.instr, branchTarget := s.idex.pc1 + s.idex.offset, aluResult := ~~~(s.idex.regA &&& s.idex.regB),
                readReg := s.idex.regA } }) ∧
    (s.stage = .memory →
      exec (.nand a b c) s = .next { s with memwb := { instr := s.exmem.instr, writeData := s.exmem.aluResult } }) ∧
    (s.stage = .writeback → ∀ h : c.toNat < 8,
      exec (.nand a b c) s =
        .next
          { s with
            wbend := { instr := s.memwb.instr, writeData := s.memwb.writeData }
            reg := s.reg.set c.toNat s.memwb.writeData h
            retired := s.retired + 1 })

/-- R180: LW completes in execute, in memory at an address in range, and in writeback. -/
def Obligations.LoadCompletes : Prop :=
  ∀ (a b : RegIdx) (c : Field16) (s : State),
    (s.stage = .execute →
      exec (.lw a b c) s =
        .next
          { s with
            exmem :=
              { instr := s.idex.instr, branchTarget := s.idex.pc1 + s.idex.offset, aluResult := s.idex.regB + s.idex.offset,
                readReg := s.idex.regA } }) ∧
    (s.stage = .memory → 0 ≤ s.exmem.aluResult.toInt → s.exmem.aluResult.toInt ≤ 65535 →
      exec (.lw a b c) s =
        .next { s with memwb := { instr := s.exmem.instr, writeData := s.datamem.read s.exmem.aluResult.toNat } }) ∧
    (s.stage = .writeback →
      exec (.lw a b c) s =
        .next
          { s with
            wbend := { instr := s.memwb.instr, writeData := s.memwb.writeData }
            reg := s.reg.set a.toNat s.memwb.writeData a.isLt
            retired := s.retired + 1 })

/-- R181, R132: SW completes in execute, in memory at an address in range, where it stores one word and leaves every other word, and in writeback. -/
def Obligations.StoreCompletes : Prop :=
  ∀ (a b : RegIdx) (c : Field16) (s : State),
    (s.stage = .execute →
      exec (.sw a b c) s =
        .next
          { s with
            exmem :=
              { instr := s.idex.instr, branchTarget := s.idex.pc1 + s.idex.offset, aluResult := s.idex.regB + s.idex.offset,
                readReg := s.idex.regA } }) ∧
    (s.stage = .memory → 0 ≤ s.exmem.aluResult.toInt → s.exmem.aluResult.toInt ≤ 65535 →
      exec (.sw a b c) s =
          .next
            { s with
              memwb := { instr := s.exmem.instr, writeData := s.memwb.writeData }
              datamem := s.datamem.write s.exmem.aluResult.toNat s.exmem.readReg } ∧
        (s.datamem.wf = true → ∀ x : Nat,
          (s.datamem.write s.exmem.aluResult.toNat s.exmem.readReg).read x =
            if x = s.exmem.aluResult.toNat then s.exmem.readReg else s.datamem.read x)) ∧
    (s.stage = .writeback →
      exec (.sw a b c) s =
        .next { s with wbend := { instr := s.memwb.instr, writeData := s.memwb.writeData }, retired := s.retired + 1 })

/-- R190, R132: BEQ completes in execute, memory (taken or not) and writeback. -/
def Obligations.BranchCompletes : Prop :=
  ∀ (a b : RegIdx) (c : Field16) (s : State),
    (s.stage = .execute →
      exec (.beq a b c) s =
        .next
          { s with
            exmem :=
              { instr := s.idex.instr, branchTarget := s.idex.pc1 + s.idex.offset,
                aluResult := if s.idex.regA = s.idex.regB then 1 else 0, readReg := s.idex.regA } }) ∧
    (s.stage = .memory → s.exmem.aluResult ≠ 0 →
      exec (.beq a b c) s =
        .next
          { s with
            memwb := { instr := s.exmem.instr, writeData := s.memwb.writeData }
            pc := s.exmem.branchTarget
            branches := s.branches + 1 }) ∧
    (s.stage = .memory → s.exmem.aluResult = 0 →
      exec (.beq a b c) s = .next { s with memwb := { instr := s.exmem.instr, writeData := s.memwb.writeData } }) ∧
    (s.stage = .writeback →
      exec (.beq a b c) s =
        .next { s with wbend := { instr := s.memwb.instr, writeData := s.memwb.writeData }, retired := s.retired + 1 })

/-- R201 to R203: JALR, NOOP and every UNKNOWN word carry 0 down the pipeline and change nothing but the latches. -/
def Obligations.WordsWithoutEffectComplete : Prop :=
  ∀ (i : Instr) (s : State), i.op = .jalr ∨ i.op = .noop ∨ i.op = .unknown →
    (s.stage = .execute →
      exec i s =
        .next
          { s with
            exmem :=
              { instr := s.idex.instr, branchTarget := s.idex.pc1 + s.idex.offset, aluResult := 0, readReg := s.idex.regA } }) ∧
    (s.stage = .memory → exec i s = .next { s with memwb := { instr := s.exmem.instr, writeData := 0 } }) ∧
    (s.stage = .writeback →
      exec i s = .next { s with wbend := { instr := s.memwb.instr, writeData := s.memwb.writeData } })

/-- R200, R121: HALT carries 0 to MEM/WB; from there it counts itself and halts the machine, and changes nothing else. That the halt stands at the
writeback stage of its meaning is the model's choice (log entry 5). -/
def Obligations.HaltCompletes : Prop :=
  ∀ (a b : RegIdx) (c : Field16) (s : State),
    (s.stage = .execute →
      exec (.halt a b c) s =
        .next
          { s with
            exmem :=
              { instr := s.idex.instr, branchTarget := s.idex.pc1 + s.idex.offset, aluResult := 0, readReg := s.idex.regA } }) ∧
    (s.stage = .memory → exec (.halt a b c) s = .next { s with memwb := { instr := s.exmem.instr, writeData := 0 } }) ∧
    (s.stage = .writeback → exec (.halt a b c) s = .next { s with retired := s.retired + 1, status := .halted })

/-- R221: the forms that fault. LW and SW out of range in the memory stage, ADD and NAND with C above 7 in writeback: only the status changes. -/
def Obligations.InstructionsFaultOutOfRange : Prop :=
  (∀ (a b : RegIdx) (c : Field16) (s : State), s.stage = .memory →
    s.exmem.aluResult.toInt < 0 ∨ 65535 < s.exmem.aluResult.toInt →
      exec (.lw a b c) s =
          .next
            { s with
              status :=
                .faulted { cause := .dataOob, stage := .memory, value := s.exmem.aluResult, instr := some s.exmem.instr } } ∧
        exec (.sw a b c) s =
          .next
            { s with
              status :=
                .faulted { cause := .dataOob, stage := .memory, value := s.exmem.aluResult, instr := some s.exmem.instr } }) ∧
  (∀ (a b : RegIdx) (c : Field16) (s : State), s.stage = .writeback → 7 < c.toNat →
    exec (.add a b c) s =
        .next
          { s with
            status :=
              .faulted
                { cause := .regIndexOob, stage := .writeback, value := BitVec.ofNat 32 c.toNat, instr := some s.memwb.instr } } ∧
      exec (.nand a b c) s =
        .next
          { s with
            status :=
              .faulted
                { cause := .regIndexOob, stage := .writeback, value := BitVec.ofNat 32 c.toNat, instr := some s.memwb.instr } })

/-! ## The tick -/

/-- R122, R123: a step of a running machine with no HALT in MEM/WB and the pc in range runs the fetched instruction and the four in the latches, all from
the same state, and commits. -/
def Obligations.StepRunsTheFiveInstructions : Prop :=
  ∀ s : State, s.status = .running → opOf s.memwb.instr ≠ .halt → inIM s.pc = true →
    ∃ f d x m w : State,
      exec (decode (s.instrmem.read s.pc.toNat)) (s.atStage .fetch) = .next f ∧
        exec (decode s.ifid.instr) (s.atStage .decode) = .next d ∧
        exec (decode s.idex.instr) (s.atStage .execute) = .next x ∧
        exec (decode s.exmem.instr) (s.atStage .memory) = .next m ∧
        exec (decode s.memwb.instr) (s.atStage .writeback) = .next w ∧ step s = .next (commit s f d x m w)

/-- R139, R138: the step, composed of the meanings of five instructions, is the one listing of the spec; so it is total. -/
def Obligations.StepEqualsTheListing : Prop :=
  ∀ s : State, step s = .next (Listing.tick s)

/-- R120, R121: a stopped machine does not change; a running one with HALT in MEM/WB halts; any other runs one cycle, which commits or faults. -/
def Obligations.TickHaltsOrRunsOneCycle : Prop :=
  ∀ s : State,
    (s.status ≠ .running → step s = .next s) ∧
    (s.status = .running → opOf s.memwb.instr = .halt →
      step s = .next { s with retired := s.retired + 1, status := .halted }) ∧
    (s.status = .running → opOf s.memwb.instr ≠ .halt →
      ∃ t, step s = .next t ∧
        ((t.cycles = s.cycles + 1 ∧ t.status = .running) ∨ ∃ r, t = { s with status := .faulted r }))

/-- R221, R224, R134: which fault a cycle reports, exactly: the writeback fault before the memory fault before the fetch fault, each with its record; a cycle
without any commits. The codes are 1, 2 and 3. -/
def Obligations.FaultRaisedExactlyWhen : Prop :=
  (FaultCause.fetchOob.code = 1 ∧ FaultCause.dataOob.code = 2 ∧ FaultCause.regIndexOob.code = 3) ∧
  ∀ s : State, s.status = .running → opOf s.memwb.instr ≠ .halt →
    let wb := (opOf s.memwb.instr = .add ∨ opOf s.memwb.instr = .nand) ∧ 7 < (fC s.memwb.instr).toNat
    let mem := (opOf s.exmem.instr = .lw ∨ opOf s.exmem.instr = .sw) ∧
      ¬(0 ≤ s.exmem.aluResult.toInt ∧ s.exmem.aluResult.toInt ≤ 65535)
    let fetch := ¬(0 ≤ s.pc.toInt ∧ s.pc.toInt ≤ 65535)
    (wb →
      step s =
        .next
          { s with
            status :=
              .faulted
                { cause := .regIndexOob, stage := .writeback, value := BitVec.ofNat 32 (fC s.memwb.instr).toNat,
                  instr := some s.memwb.instr } }) ∧
    (¬wb → mem →
      step s =
        .next
          { s with
            status :=
              .faulted { cause := .dataOob, stage := .memory, value := s.exmem.aluResult, instr := some s.exmem.instr } }) ∧
    (¬wb → ¬mem → fetch →
      step s = .next { s with status := .faulted { cause := .fetchOob, stage := .fetch, value := s.pc, instr := none } }) ∧
    (¬wb → ¬mem → ¬fetch → ∃ t, Commits s t ∧ t.status = .running)

/-- R225: with HALT in MEM/WB the tick is the halt of R121, no cycle body runs and no fault is raised, whatever the pc; without it, a pc out of range faults in
that very cycle. -/
def Obligations.HaltCheckPrecedesFaults : Prop :=
  ∀ s t : State, s.status = .running → step s = .next t →
    (opOf s.memwb.instr = .halt → t = { s with retired := s.retired + 1, status := .halted }) ∧
      (opOf s.memwb.instr ≠ .halt → inIM s.pc = false → ∃ r, t = { s with status := .faulted r })

/-- R228, R250: Halted and Faulted last for any number of ticks; reset leaves them, and its outcome is the same from every block. -/
def Obligations.OnlyResetLeavesAStop : Prop :=
  (∀ (n : Nat) (s : State), s.status ≠ .running → ticks n s = .next s) ∧
  (∀ (b : Block) (image : List Int) (regs : RegFile), imageOk image = true →
    ∃ b', respond b (.reset image regs) = .next b' ∧ launch image regs = some b' ∧ statusOut b' = .running)

/-! ## One committed cycle, stage by stage -/

/-- R124, R125, R123: the fetch of a committed cycle, the fetch counter and the next-pc multiplexer. -/
def Obligations.FetchOfACommittedCycle : Prop :=
  ∀ s t : State, Commits s t →
    (0 ≤ s.pc.toInt ∧ s.pc.toInt ≤ 65535) ∧ t.ifid = { instr := s.instrmem.read s.pc.toNat, pc1 := s.pc + 1 } ∧
      t.pc = (if opOf s.exmem.instr = .beq ∧ s.exmem.aluResult ≠ 0 then s.exmem.branchTarget else s.pc + 1) ∧
      t.fetched =
        if opOf s.ifid.instr = .halt ∨ opOf s.idex.instr = .halt ∨ opOf s.exmem.instr = .halt ∨ opOf s.memwb.instr = .halt
        then s.fetched else s.fetched + 1

/-- R127, R128: the decode of a committed cycle reads the registers as they stood before the writeback of the same cycle. -/
def Obligations.DecodeReadsOldRegisters : Prop :=
  ∀ s t : State, Commits s t →
    t.idex =
        { instr := s.ifid.instr, pc1 := s.ifid.pc1, regA := regRead s.reg (fA s.ifid.instr),
          regB := regRead s.reg (fB s.ifid.instr), offset := sext16 (fC s.ifid.instr) } ∧
      ∀ r, destination s.memwb.instr = some r → fA s.ifid.instr = r →
        t.idex.regA = regRead s.reg r ∧ regRead t.reg r = s.memwb.writeData

/-- R129, R130: the execute of a committed cycle; in a state of the invariant the branch target is the exact sum. -/
def Obligations.ExecuteOfACommittedCycle : Prop :=
  ∀ s t : State, Commits s t →
    t.exmem =
        { instr := s.idex.instr, branchTarget := wrap32 (s.idex.pc1.toInt + s.idex.offset.toInt),
          aluResult :=
            match opOf s.idex.instr with
            | .add => wrap32 (s.idex.regA.toInt + s.idex.regB.toInt)
            | .nand => ~~~(s.idex.regA &&& s.idex.regB)
            | .lw => wrap32 (s.idex.regB.toInt + s.idex.offset.toInt)
            | .sw => wrap32 (s.idex.regB.toInt + s.idex.offset.toInt)
            | .beq => if s.idex.regA = s.idex.regB then 1 else 0
            | .jalr => 0
            | .halt => 0
            | .noop => 0
            | .unknown => 0
          readReg := s.idex.regA } ∧
      (Inv s → t.exmem.branchTarget.toInt = s.idex.pc1.toInt + s.idex.offset.toInt)

/-- R131, R132: the memory stage of a committed cycle, by opcode. -/
def Obligations.MemoryOfACommittedCycle : Prop :=
  ∀ s t : State, Commits s t →
    t.memwb.instr = s.exmem.instr ∧
      (match opOf s.exmem.instr with
        | .add => t.memwb.writeData = s.exmem.aluResult ∧ t.datamem = s.datamem ∧ t.branches = s.branches
        | .nand => t.memwb.writeData = s.exmem.aluResult ∧ t.datamem = s.datamem ∧ t.branches = s.branches
        | .lw =>
          (0 ≤ s.exmem.aluResult.toInt ∧ s.exmem.aluResult.toInt ≤ 65535) ∧
            t.memwb.writeData = s.datamem.read s.exmem.aluResult.toNat ∧ t.datamem = s.datamem ∧ t.branches = s.branches
        | .sw =>
          (0 ≤ s.exmem.aluResult.toInt ∧ s.exmem.aluResult.toInt ≤ 65535) ∧ t.memwb.writeData = s.memwb.writeData ∧
            t.datamem = s.datamem.write s.exmem.aluResult.toNat s.exmem.readReg ∧ t.branches = s.branches
        | .beq =>
          t.memwb.writeData = s.memwb.writeData ∧ t.datamem = s.datamem ∧
            (s.exmem.aluResult ≠ 0 → t.pc = s.exmem.branchTarget ∧ t.branches = s.branches + 1) ∧
            (s.exmem.aluResult = 0 → t.branches = s.branches)
        | .jalr => t.memwb.writeData = 0 ∧ t.datamem = s.datamem ∧ t.branches = s.branches
        | .halt => t.memwb.writeData = 0 ∧ t.datamem = s.datamem ∧ t.branches = s.branches
        | .noop => t.memwb.writeData = 0 ∧ t.datamem = s.datamem ∧ t.branches = s.branches
        | .unknown => t.memwb.writeData = 0 ∧ t.datamem = s.datamem ∧ t.branches = s.branches)

/-- R133: the writeback of a committed cycle, by opcode. HALT's arm is never reached. -/
def Obligations.WritebackOfACommittedCycle : Prop :=
  ∀ s t : State, Commits s t →
    t.wbend = { instr := s.memwb.instr, writeData := s.memwb.writeData } ∧
      (match opOf s.memwb.instr with
        | .add => (∃ h : (fC s.memwb.instr).toNat < 8, t.reg = s.reg.set (fC s.memwb.instr).toNat s.memwb.writeData h) ∧
            t.retired = s.retired + 1
        | .nand => (∃ h : (fC s.memwb.instr).toNat < 8, t.reg = s.reg.set (fC s.memwb.instr).toNat s.memwb.writeData h) ∧
            t.retired = s.retired + 1
        | .lw => t.reg = s.reg.set (fA s.memwb.instr).toNat s.memwb.writeData (fA s.memwb.instr).isLt ∧
            t.retired = s.retired + 1
        | .sw => t.reg = s.reg ∧ t.retired = s.retired + 1
        | .beq => t.reg = s.reg ∧ t.retired = s.retired + 1
        | .jalr => t.reg = s.reg ∧ t.retired = s.retired
        | .halt => False
        | .noop => t.reg = s.reg ∧ t.retired = s.retired
        | .unknown => t.reg = s.reg ∧ t.retired = s.retired)

/-! ## Frames and whole-machine rules -/

/-- R28: what every step does to the five counters. -/
def Obligations.CountersCountAsListed : Prop :=
  ∀ s t : State, step s = .next t →
    (Commits s t →
      t.cycles = s.cycles + 1 ∧
        (t.fetched =
          if opOf s.ifid.instr = .halt ∨ opOf s.idex.instr = .halt ∨ opOf s.exmem.instr = .halt ∨ opOf s.memwb.instr = .halt
          then s.fetched else s.fetched + 1) ∧
        (t.retired =
          if opOf s.memwb.instr = .add ∨ opOf s.memwb.instr = .nand ∨ opOf s.memwb.instr = .lw ∨ opOf s.memwb.instr = .sw ∨
            opOf s.memwb.instr = .beq
          then s.retired + 1 else s.retired) ∧
        (t.branches = if opOf s.exmem.instr = .beq ∧ s.exmem.aluResult ≠ 0 then s.branches + 1 else s.branches)) ∧
    (¬Commits s t →
      t.cycles = s.cycles ∧ t.fetched = s.fetched ∧ t.branches = s.branches ∧
        (t.retired = if s.status = .running ∧ opOf s.memwb.instr = .halt then s.retired + 1 else s.retired)) ∧
    t.mispreds = s.mispreds

/-- R30: no step writes instruction memory, over any number of ticks, whatever the stores. -/
def Obligations.InstructionMemoryNeverChanges : Prop :=
  ∀ (n : Nat) (s t : State), ticks n s = .next t → t.instrmem = s.instrmem

/-- R24: a step changes at most the one register that the word in MEM/WB writes, to MEM/WB's data. -/
def Obligations.OnlyTheDestinationRegisterChanges : Prop :=
  ∀ (s t : State) (r : RegIdx), step s = .next t → regRead t.reg r ≠ regRead s.reg r →
    regRead t.reg r = s.memwb.writeData ∧
      (((opOf s.memwb.instr = .add ∨ opOf s.memwb.instr = .nand) ∧ (fC s.memwb.instr).toNat = r.toNat) ∨
        (opOf s.memwb.instr = .lw ∧ fA s.memwb.instr = r))

/-- R31: a step changes at most the one word of data memory that an SW in EX/MEM addresses, to the SW's data. -/
def Obligations.OnlyAStoreChangesDataMemory : Prop :=
  ∀ (s t : State) (x : Nat), s.datamem.wf = true → step s = .next t → t.datamem.read x ≠ s.datamem.read x →
    opOf s.exmem.instr = .sw ∧ x = s.exmem.aluResult.toNat ∧ t.datamem.read x = s.exmem.readReg

/-- R231, R36: nothing the machine does depends on the five counters, on WB/END, or on the model's own field `stage` (log entry 1): two states that differ in
them alone step to states that differ in them alone. -/
def Obligations.CountersAndWbEndAreNeverRead : Prop :=
  ∀ (s t : State) (c f r b m : Nat) (e : WBEND) (k : Stage), step s = .next t →
    ∃ t', step { s with cycles := c, fetched := f, retired := r, branches := b, mispreds := m, wbend := e, stage := k } = .next t' ∧
      t'.pc = t.pc ∧ t'.instrmem = t.instrmem ∧ t'.datamem = t.datamem ∧ t'.reg = t.reg ∧ t'.ifid = t.ifid ∧
      t'.idex = t.idex ∧ t'.exmem = t.exmem ∧ t'.memwb = t.memwb ∧ t'.status = t.status

/-- R222: only two things put the pc out of instruction memory: a taken BEQ whose target is out of range, and the fetch of address 65535. -/
def Obligations.PcLeavesRangeInTwoWays : Prop :=
  ∀ s t : State, step s = .next t → inIM s.pc = true → inIM t.pc = false →
    (opOf s.exmem.instr = .beq ∧ s.exmem.aluResult ≠ 0 ∧ t.pc = s.exmem.branchTarget) ∨
      (s.pc.toInt = 65535 ∧ t.pc.toInt = 65536)

/-! ## Several cycles -/

/-- R136, R12: a fetched word goes down the five latches, one stage a cycle. -/
def Obligations.WordPassesEveryStage : Prop :=
  ∀ p : Nat → State, CommitPath 5 p →
    (p 1).ifid.instr = fetchedWord (p 0) ∧ (p 2).idex.instr = fetchedWord (p 0) ∧ (p 3).exmem.instr = fetchedWord (p 0) ∧
      (p 4).memwb.instr = fetchedWord (p 0) ∧ (p 5).wbend.instr = fetchedWord (p 0) ∧
      (∀ k, k < 5 →
        (p (k + 1)).idex.instr = (p k).ifid.instr ∧ (p (k + 1)).exmem.instr = (p k).idex.instr ∧
          (p (k + 1)).memwb.instr = (p k).exmem.instr ∧ (p (k + 1)).wbend.instr = (p k).memwb.instr)

/-- R170, R171: the net effect of an ADD or a NAND in IF/ID, four committed cycles on: the destination holds the result of the registers as they stood at the
start, every other register is as before that last cycle, and it has retired. -/
def Obligations.AluInstructionNetEffect : Prop :=
  ∀ (p : Nat → State) (a b : RegIdx) (c : Field16), CommitPath 4 p →
    ((p 0).ifid.instr = encode (.add a b c) →
      ∃ h : c.toNat < 8,
        (p 4).reg = (p 3).reg.set c.toNat (regRead (p 0).reg a + regRead (p 0).reg b) h ∧ (p 4).retired = (p 3).retired + 1) ∧
    ((p 0).ifid.instr = encode (.nand a b c) →
      ∃ h : c.toNat < 8,
        (p 4).reg = (p 3).reg.set c.toNat (~~~(regRead (p 0).reg a &&& regRead (p 0).reg b)) h ∧
          (p 4).retired = (p 3).retired + 1)

/-- R180: the net effect of an LW in IF/ID: the word at base plus offset, as data memory stands in the memory stage. -/
def Obligations.LoadNetEffect : Prop :=
  ∀ (p : Nat → State) (a b : RegIdx) (c : Field16), CommitPath 4 p → (p 0).ifid.instr = encode (.lw a b c) →
    let ea := regRead (p 0).reg b + sext16 c
    ea.toNat ≤ 65535 ∧
      (p 4).reg = (p 3).reg.set a.toNat ((p 2).datamem.read ea.toNat) a.isLt ∧ (p 4).retired = (p 3).retired + 1

/-- R181: the net effect of an SW in IF/ID: register A goes to base plus offset, every other word stays, and it retires a cycle after the write. -/
def Obligations.StoreNetEffect : Prop :=
  ∀ (p : Nat → State) (a b : RegIdx) (c : Field16), CommitPath 4 p → (p 0).ifid.instr = encode (.sw a b c) →
    let ea := regRead (p 0).reg b + sext16 c
    ea.toNat ≤ 65535 ∧
      ((p 2).datamem.wf = true → ∀ x : Nat,
        (p 3).datamem.read x = if x = ea.toNat then regRead (p 0).reg a else (p 2).datamem.read x) ∧
      (p 3).instrmem = (p 0).instrmem ∧ (p 4).retired = (p 3).retired + 1 ∧ (p 4).reg = (p 3).reg

/-- R191, R190: a BEQ in IF/ID is resolved two cycles on: the three words at the pc of the three cycles after its fetch pass on whether or not it is taken, and
the fourth fetch is from its target or goes on. -/
def Obligations.BranchShadowIsThreeWords : Prop :=
  ∀ (p : Nat → State) (a b : RegIdx) (c : Field16), CommitPath 4 p → (p 0).ifid.instr = encode (.beq a b c) →
    ((p 3).exmem.instr = fetchedWord (p 0) ∧ (p 3).idex.instr = fetchedWord (p 1) ∧ (p 3).ifid.instr = fetchedWord (p 2)) ∧
      (p 3).pc =
        (if regRead (p 0).reg a = regRead (p 0).reg b then (p 0).ifid.pc1 + sext16 c else (p 2).pc + 1) ∧
      (p 3).branches = (p 2).branches + (if regRead (p 0).reg a = regRead (p 0).reg b then 1 else 0) ∧
      (p 4).ifid.instr = fetchedWord (p 3) ∧ (p 4).retired = (p 3).retired + 1

/-- R192: taken BEQs in two successive slots: one word is fetched from the first target, the next from the second. -/
def Obligations.BranchInTheShadowWins : Prop :=
  ∀ p : Nat → State, CommitPath 3 p → opOf (p 0).exmem.instr = .beq → (p 0).exmem.aluResult ≠ 0 →
    opOf (p 0).idex.instr = .beq → (p 0).idex.regA = (p 0).idex.regB →
      (p 1).pc = (p 0).exmem.branchTarget ∧ (p 2).pc = (p 0).idex.pc1 + (p 0).idex.offset ∧
        (p 2).ifid.instr = (p 0).instrmem.read (p 0).exmem.branchTarget.toNat ∧
        (p 3).ifid.instr = (p 0).instrmem.read ((p 0).idex.pc1 + (p 0).idex.offset).toNat

/-- R200, R260: a HALT in IF/ID with no HALT ahead of it: after three committed cycles the next tick halts. Its three successors were fetched, not counted, and
the halting tick changes only `retired` and the status. -/
def Obligations.HaltStopsAtMemWb : Prop :=
  ∀ p : Nat → State, CommitPath 3 p → opOf (p 0).ifid.instr = .halt →
    step (p 3) = .next { p 3 with retired := (p 3).retired + 1, status := .halted } ∧ (p 3).cycles = (p 0).cycles + 3 ∧
      (p 3).fetched = (p 0).fetched ∧
      ((p 3).exmem.instr = fetchedWord (p 0) ∧ (p 3).idex.instr = fetchedWord (p 1) ∧ (p 3).ifid.instr = fetchedWord (p 2))

/-- R255: a register holds the value of the last writeback to it, and decode reads it: over any number of committed cycles, the word that wrote it last stood in
MEM/WB, four slots behind the word that decode reads next. -/
def Obligations.RegisterReadSeesLastWriteback : Prop :=
  ∀ (n : Nat) (p : Nat → State) (r : RegIdx), CommitPath (n + 1) p →
    ((∀ k, k < n → destination (p k).memwb.instr ≠ some r) → regRead (p n).reg r = regRead (p 0).reg r) ∧
    (∀ j, j < n → destination (p j).memwb.instr = some r → (∀ k, j < k → k < n → destination (p k).memwb.instr ≠ some r) →
      regRead (p n).reg r = (p j).memwb.writeData) ∧
    (fA (p n).ifid.instr = r → (p (n + 1)).idex.regA = regRead (p n).reg r) ∧
    (fB (p n).ifid.instr = r → (p (n + 1)).idex.regB = regRead (p n).reg r)

/-- R255: readers one, two and three slots after an ADD see the old value of its destination, where no older word in the pipeline writes it; the reader four
slots after sees the sum. -/
def Obligations.ReadersWithinThreeSlotsSeeTheOldValue : Prop :=
  ∀ (p : Nat → State) (a b : RegIdx) (c : Field16) (r : RegIdx), CommitPath 5 p → (p 0).ifid.instr = encode (.add a b c) →
    c.toNat = r.toNat → destination (p 0).idex.instr ≠ some r → destination (p 0).exmem.instr ≠ some r →
    destination (p 0).memwb.instr ≠ some r →
      (∀ k, 1 ≤ k → k ≤ 3 →
        (fA (p k).ifid.instr = r → (p (k + 1)).idex.regA = regRead (p 0).reg r) ∧
          (fB (p k).ifid.instr = r → (p (k + 1)).idex.regB = regRead (p 0).reg r)) ∧
        (fA (p 4).ifid.instr = r → (p 5).idex.regA = regRead (p 0).reg a + regRead (p 0).reg b) ∧
        (fB (p 4).ifid.instr = r → (p 5).idex.regB = regRead (p 0).reg a + regRead (p 0).reg b)

/-- R69, R258: an LW sees the last SW to its address, in the very next slot too, and the earlier content where there is none. -/
def Obligations.LoadSeesEveryEarlierStore : Prop :=
  ∀ (n : Nat) (p : Nat → State) (ad : Word), CommitPath (n + 1) p → (p 0).datamem.wf = true → opOf (p n).exmem.instr = .lw →
    (p n).exmem.aluResult = ad →
      ((∀ k, k < n → ¬storesTo (p k) ad) → (p (n + 1)).memwb.writeData = (p 0).datamem.read ad.toNat) ∧
      (∀ j, j < n → storesTo (p j) ad → (∀ k, j < k → k < n → ¬storesTo (p k) ad) →
        (p (n + 1)).memwb.writeData = (p j).exmem.readReg)

/-- R261: the totals of a run from reset whose first HALT is in slot `h` and which does not fault. -/
def Obligations.HaltedRunTotals : Prop :=
  ∀ (image : List Int) (regs : RegFile) (p : Nat → State) (h : Nat), resetWith image regs = some (p 0) → CommitPath (h + 4) p →
    (∀ k, k < h → opOf (fetchedWord (p k)) ≠ .halt) → opOf (fetchedWord (p h)) = .halt →
      ∃ t, step (p (h + 4)) = .next t ∧ t.status = .halted ∧ t.cycles = h + 4 ∧ t.fetched = h + 1 ∧
        t.retired = (List.range h).countP (fun k => retires (fetchedWord (p k))) + 1 ∧
        t.branches =
          (List.range h).countP (fun k => opOf (fetchedWord (p k)) == .beq && (p (k + 3)).exmem.aluResult != 0) ∧
        t.mispreds = 0 ∧ t.pc = (p (h + 3)).pc + 1

/-! ## The invariant and reset -/

/-- Every step keeps the invariant (R28, R33, R129, R135 and the canonical form of the memories). -/
def Obligations.StepKeepsTheInvariant : Prop :=
  ∀ s t : State, Inv s → step s = .next t → Inv t

/-- The invariant holds right after reset with the empty image. -/
def Obligations.ResetMeetsTheInvariant : Prop :=
  Inv State.reset

/-- The invariant holds after reset with any image and registers, and so in every state of every run. -/
def Obligations.EveryRunMeetsTheInvariant : Prop :=
  ∀ (image : List Int) (regs : RegFile) (n : Nat) (s t : State), resetWith image regs = some s →
    ticks n s = .next t → Inv t

/-- R38: the reset state of every image the loader takes. -/
def Obligations.ResetPlacesTheImage : Prop :=
  ∀ (image : List Int) (regs : RegFile), imageOk image = true →
    ∃ t, resetWith image regs = some t ∧
      (∀ i : Nat, (t.instrmem.read i).toInt = image.getD i 0 ∧ (t.datamem.read i).toInt = image.getD i 0) ∧
      t.reg = regs ∧ t.pc = 0 ∧
      (t.ifid = { instr := 0x01C00000, pc1 := 0 } ∧
        t.idex = { instr := 0x01C00000, pc1 := 0, regA := 0, regB := 0, offset := 0 } ∧
        t.exmem = { instr := 0x01C00000, branchTarget := 0, aluResult := 0, readReg := 0 } ∧
        t.memwb = { instr := 0x01C00000, writeData := 0 } ∧ t.wbend = { instr := 0x01C00000, writeData := 0 }) ∧
      (t.cycles = 0 ∧ t.fetched = 0 ∧ t.retired = 0 ∧ t.branches = 0 ∧ t.mispreds = 0) ∧ t.status = .running

/-- R251: an image longer than 65536 words, or with a value outside 32 bits, has no reset state, and no other image is refused. -/
def Obligations.ResetRefusesBadImages : Prop :=
  ∀ (image : List Int) (regs : RegFile),
    resetWith image regs = none ↔ 65536 < image.length ∨ ∃ n, n ∈ image ∧ (n < -2147483648 ∨ 2147483647 < n)

/-- `State.reset` is reset with the empty image and registers all 0 (log entry 4: that the model's reset state has no image is the model's choice). -/
def Obligations.ResetIsTheEmptyImage : Prop :=
  resetWith [] (Vector.replicate 8 0) = some State.reset ∧ ∀ r : RegIdx, regRead State.reset.reg r = 0

/-- The model's `withFetchWord` (log entry 3): the next tick fetches the word placed, and nothing but instruction memory differs. -/
def Obligations.PlacedWordIsFetchedNext : Prop :=
  ∀ (s t : State) (w : Word), s.instrmem.wf = true → Commits (s.withFetchWord 32 w.toNat) t →
    t.ifid.instr = w ∧ { s.withFetchWord 32 w.toNat with instrmem := s.instrmem } = s

/-- R39, R41: the `nummemory` that `view` shows is the length of the image of the last reset, after any number of ticks, and no tick depends on it. -/
def Obligations.ViewShowsTheImageLength : Prop :=
  (∀ (n : Nat) (s : State), ∃ u, ticks n s = .next u ∧
    ∀ m : Nat, respondAll (List.replicate n .tick) { state := s, nummemory := m } = .next { state := u, nummemory := m }) ∧
  (∀ (b : Block) (image : List Int) (regs : RegFile) (n : Nat), imageOk image = true →
    ∃ t u b', resetWith image regs = some t ∧ ticks n t = .next u ∧
      respondAll (.reset image regs :: List.replicate n .tick) b = .next b' ∧
      view b' = { state := u, nummemory := image.length })
end

