-- ==== Sys2Proof/Laws/Decode.lean ====
section
/-!
SUPPORT. The fields of a packed word, and the decoder by the opcode bits.
-/

namespace Sys2Proof

theorem tagBits_pack (tag : BitVec 7) (op a b : RegIdx) (c : Field16) : tagBits (pack tag op a b c) = tag := by
  ext i hi
  have h : i = 0 ∨ i = 1 ∨ i = 2 ∨ i = 3 ∨ i = 4 ∨ i = 5 ∨ i = 6 := by omega
  rcases h with rfl | rfl | rfl | rfl | rfl | rfl | rfl <;> simp [tagBits, pack]

theorem opBits_pack (tag : BitVec 7) (op a b : RegIdx) (c : Field16) : opBits (pack tag op a b c) = op := by
  ext i hi
  have h : i = 0 ∨ i = 1 ∨ i = 2 := by omega
  rcases h with rfl | rfl | rfl <;> simp [opBits, pack]

theorem fA_pack (tag : BitVec 7) (op a b : RegIdx) (c : Field16) : fA (pack tag op a b c) = a := by
  ext i hi
  have h : i = 0 ∨ i = 1 ∨ i = 2 := by omega
  rcases h with rfl | rfl | rfl <;> simp [fA, pack]

theorem fB_pack (tag : BitVec 7) (op a b : RegIdx) (c : Field16) : fB (pack tag op a b c) = b := by
  ext i hi
  have h : i = 0 ∨ i = 1 ∨ i = 2 := by omega
  rcases h with rfl | rfl | rfl <;> simp [fB, pack]

theorem fC_pack (tag : BitVec 7) (op a b : RegIdx) (c : Field16) : fC (pack tag op a b c) = c := by
  ext i hi
  have h : i < 16 := hi
  have h1 : i < 19 := by omega
  have h2 : i < 22 := by omega
  have h3 : i < 25 := by omega
  have h4 : i < 32 := by omega
  simp [fC, pack, h, h1, h2, h3, h4, BitVec.getLsbD_eq_getElem]

/-- A word is packed from its own fields. -/
theorem pack_fields (w : Word) : pack (tagBits w) (opBits w) (fA w) (fB w) (fC w) = w := by
  ext i hi
  interval_cases i <;> simp [pack, tagBits, opBits, fA, fB, fC, BitVec.getLsbD_eq_getElem]

/-- The decoder on a packed word: an opcode by its number where bits 31:25 are 0, UNKNOWN elsewhere (R93). -/
theorem decode_pack (tag : BitVec 7) (op a b : RegIdx) (c : Field16) :
    decode (pack tag op a b c) =
      if tag = 0#7 then
        match op.toNat with
        | 0 => .add a b c
        | 1 => .nand a b c
        | 2 => .lw a b c
        | 3 => .sw a b c
        | 4 => .beq a b c
        | 5 => .jalr a b c
        | 6 => .halt a b c
        | _ => .noop a b c
      else .unknown tag op a b c := by
  simp only [decode, tagBits_pack, opBits_pack, fA_pack, fB_pack, fC_pack] <;> rfl

/-- What a word decodes to has that word's field A. -/
theorem fieldA_decode (w : Word) : (decode w).fieldA = fA w := by
  unfold decode
  split
  · split <;> rfl
  · rfl

theorem fieldB_decode (w : Word) : (decode w).fieldB = fB w := by
  unfold decode
  split
  · split <;> rfl
  · rfl

theorem fieldC_decode (w : Word) : (decode w).fieldC = fC w := by
  unfold decode
  split
  · split <;> rfl
  · rfl

/-- What a word decodes to, by its opcode class and its fields. -/
theorem decode_eq_of_op (w : Word) :
    decode w =
      match opOf w with
      | .add => .add (fA w) (fB w) (fC w)
      | .nand => .nand (fA w) (fB w) (fC w)
      | .lw => .lw (fA w) (fB w) (fC w)
      | .sw => .sw (fA w) (fB w) (fC w)
      | .beq => .beq (fA w) (fB w) (fC w)
      | .jalr => .jalr (fA w) (fB w) (fC w)
      | .halt => .halt (fA w) (fB w) (fC w)
      | .noop => .noop (fA w) (fB w) (fC w)
      | .unknown => .unknown (tagBits w) (opBits w) (fA w) (fB w) (fC w) := by
  unfold opOf decode
  split
  · split <;> rfl
  · rfl

end Sys2Proof
end

