-- ==== Sys2Proof/Laws/State.lean ====
section
/-!
SUPPORT. One lemma per field per update of State, each true by rfl: what each unconditional update leaves in each field, so that no later proof unfolds a
record update.
-/

namespace Sys2Proof.Machine

/-! ### State.atStage -/

@[simp] theorem State.atStage_pc (s : State) (k : Stage) : (s.atStage k).pc = s.pc := rfl
@[simp] theorem State.atStage_instrmem (s : State) (k : Stage) : (s.atStage k).instrmem = s.instrmem := rfl
@[simp] theorem State.atStage_datamem (s : State) (k : Stage) : (s.atStage k).datamem = s.datamem := rfl
@[simp] theorem State.atStage_reg (s : State) (k : Stage) : (s.atStage k).reg = s.reg := rfl
@[simp] theorem State.atStage_ifid (s : State) (k : Stage) : (s.atStage k).ifid = s.ifid := rfl
@[simp] theorem State.atStage_idex (s : State) (k : Stage) : (s.atStage k).idex = s.idex := rfl
@[simp] theorem State.atStage_exmem (s : State) (k : Stage) : (s.atStage k).exmem = s.exmem := rfl
@[simp] theorem State.atStage_memwb (s : State) (k : Stage) : (s.atStage k).memwb = s.memwb := rfl
@[simp] theorem State.atStage_wbend (s : State) (k : Stage) : (s.atStage k).wbend = s.wbend := rfl
@[simp] theorem State.atStage_cycles (s : State) (k : Stage) : (s.atStage k).cycles = s.cycles := rfl
@[simp] theorem State.atStage_fetched (s : State) (k : Stage) : (s.atStage k).fetched = s.fetched := rfl
@[simp] theorem State.atStage_retired (s : State) (k : Stage) : (s.atStage k).retired = s.retired := rfl
@[simp] theorem State.atStage_branches (s : State) (k : Stage) : (s.atStage k).branches = s.branches := rfl
@[simp] theorem State.atStage_mispreds (s : State) (k : Stage) : (s.atStage k).mispreds = s.mispreds := rfl
@[simp] theorem State.atStage_status (s : State) (k : Stage) : (s.atStage k).status = s.status := rfl
@[simp] theorem State.atStage_stage (s : State) (k : Stage) : (s.atStage k).stage = k := rfl

/-! ### raiseFault -/

@[simp] theorem raiseFault_pc (s : State) (c : FaultCause) (k : Stage) (v : Word) (i : Option Word) : (raiseFault s c k v i).pc = s.pc := rfl
@[simp] theorem raiseFault_instrmem (s : State) (c : FaultCause) (k : Stage) (v : Word) (i : Option Word) :
    (raiseFault s c k v i).instrmem =
      s.instrmem := rfl
@[simp] theorem raiseFault_datamem (s : State) (c : FaultCause) (k : Stage) (v : Word) (i : Option Word) :
    (raiseFault s c k v i).datamem =
      s.datamem := rfl
@[simp] theorem raiseFault_reg (s : State) (c : FaultCause) (k : Stage) (v : Word) (i : Option Word) : (raiseFault s c k v i).reg = s.reg := rfl
@[simp] theorem raiseFault_ifid (s : State) (c : FaultCause) (k : Stage) (v : Word) (i : Option Word) : (raiseFault s c k v i).ifid = s.ifid := rfl
@[simp] theorem raiseFault_idex (s : State) (c : FaultCause) (k : Stage) (v : Word) (i : Option Word) : (raiseFault s c k v i).idex = s.idex := rfl
@[simp] theorem raiseFault_exmem (s : State) (c : FaultCause) (k : Stage) (v : Word) (i : Option Word) : (raiseFault s c k v i).exmem = s.exmem := rfl
@[simp] theorem raiseFault_memwb (s : State) (c : FaultCause) (k : Stage) (v : Word) (i : Option Word) : (raiseFault s c k v i).memwb = s.memwb := rfl
@[simp] theorem raiseFault_wbend (s : State) (c : FaultCause) (k : Stage) (v : Word) (i : Option Word) : (raiseFault s c k v i).wbend = s.wbend := rfl
@[simp] theorem raiseFault_cycles (s : State) (c : FaultCause) (k : Stage) (v : Word) (i : Option Word) :
    (raiseFault s c k v i).cycles =
      s.cycles := rfl
@[simp] theorem raiseFault_fetched (s : State) (c : FaultCause) (k : Stage) (v : Word) (i : Option Word) :
    (raiseFault s c k v i).fetched =
      s.fetched := rfl
@[simp] theorem raiseFault_retired (s : State) (c : FaultCause) (k : Stage) (v : Word) (i : Option Word) :
    (raiseFault s c k v i).retired =
      s.retired := rfl
@[simp] theorem raiseFault_branches (s : State) (c : FaultCause) (k : Stage) (v : Word) (i : Option Word) :
    (raiseFault s c k v i).branches =
      s.branches := rfl
@[simp] theorem raiseFault_mispreds (s : State) (c : FaultCause) (k : Stage) (v : Word) (i : Option Word) :
    (raiseFault s c k v i).mispreds =
      s.mispreds := rfl
@[simp] theorem raiseFault_status (s : State) (c : FaultCause) (k : Stage) (v : Word) (i : Option Word) :
    (raiseFault s c k v i).status =
      .faulted { cause := c, stage := k, value := v, instr := i } := rfl
@[simp] theorem raiseFault_stage (s : State) (c : FaultCause) (k : Stage) (v : Word) (i : Option Word) : (raiseFault s c k v i).stage = s.stage := rfl

/-! ### haltMachine -/

@[simp] theorem haltMachine_pc (s : State) : (haltMachine s).pc = s.pc := rfl
@[simp] theorem haltMachine_instrmem (s : State) : (haltMachine s).instrmem = s.instrmem := rfl
@[simp] theorem haltMachine_datamem (s : State) : (haltMachine s).datamem = s.datamem := rfl
@[simp] theorem haltMachine_reg (s : State) : (haltMachine s).reg = s.reg := rfl
@[simp] theorem haltMachine_ifid (s : State) : (haltMachine s).ifid = s.ifid := rfl
@[simp] theorem haltMachine_idex (s : State) : (haltMachine s).idex = s.idex := rfl
@[simp] theorem haltMachine_exmem (s : State) : (haltMachine s).exmem = s.exmem := rfl
@[simp] theorem haltMachine_memwb (s : State) : (haltMachine s).memwb = s.memwb := rfl
@[simp] theorem haltMachine_wbend (s : State) : (haltMachine s).wbend = s.wbend := rfl
@[simp] theorem haltMachine_cycles (s : State) : (haltMachine s).cycles = s.cycles := rfl
@[simp] theorem haltMachine_fetched (s : State) : (haltMachine s).fetched = s.fetched := rfl
@[simp] theorem haltMachine_retired (s : State) : (haltMachine s).retired = s.retired + 1 := rfl
@[simp] theorem haltMachine_branches (s : State) : (haltMachine s).branches = s.branches := rfl
@[simp] theorem haltMachine_mispreds (s : State) : (haltMachine s).mispreds = s.mispreds := rfl
@[simp] theorem haltMachine_status (s : State) : (haltMachine s).status = .halted := rfl
@[simp] theorem haltMachine_stage (s : State) : (haltMachine s).stage = s.stage := rfl

/-! ### decodeStage -/

@[simp] theorem decodeStage_pc (a b : RegIdx) (c : Field16) (s : State) : (decodeStage a b c s).pc = s.pc := rfl
@[simp] theorem decodeStage_instrmem (a b : RegIdx) (c : Field16) (s : State) : (decodeStage a b c s).instrmem = s.instrmem := rfl
@[simp] theorem decodeStage_datamem (a b : RegIdx) (c : Field16) (s : State) : (decodeStage a b c s).datamem = s.datamem := rfl
@[simp] theorem decodeStage_reg (a b : RegIdx) (c : Field16) (s : State) : (decodeStage a b c s).reg = s.reg := rfl
@[simp] theorem decodeStage_ifid (a b : RegIdx) (c : Field16) (s : State) : (decodeStage a b c s).ifid = s.ifid := rfl
@[simp] theorem decodeStage_idex (a b : RegIdx) (c : Field16) (s : State) :
    (decodeStage a b c s).idex =
      { instr := s.ifid.instr, pc1 := s.ifid.pc1, regA := regRead s.reg a, regB := regRead s.reg b, offset := sext16 c } := rfl
@[simp] theorem decodeStage_exmem (a b : RegIdx) (c : Field16) (s : State) : (decodeStage a b c s).exmem = s.exmem := rfl
@[simp] theorem decodeStage_memwb (a b : RegIdx) (c : Field16) (s : State) : (decodeStage a b c s).memwb = s.memwb := rfl
@[simp] theorem decodeStage_wbend (a b : RegIdx) (c : Field16) (s : State) : (decodeStage a b c s).wbend = s.wbend := rfl
@[simp] theorem decodeStage_cycles (a b : RegIdx) (c : Field16) (s : State) : (decodeStage a b c s).cycles = s.cycles := rfl
@[simp] theorem decodeStage_fetched (a b : RegIdx) (c : Field16) (s : State) : (decodeStage a b c s).fetched = s.fetched := rfl
@[simp] theorem decodeStage_retired (a b : RegIdx) (c : Field16) (s : State) : (decodeStage a b c s).retired = s.retired := rfl
@[simp] theorem decodeStage_branches (a b : RegIdx) (c : Field16) (s : State) : (decodeStage a b c s).branches = s.branches := rfl
@[simp] theorem decodeStage_mispreds (a b : RegIdx) (c : Field16) (s : State) : (decodeStage a b c s).mispreds = s.mispreds := rfl
@[simp] theorem decodeStage_status (a b : RegIdx) (c : Field16) (s : State) : (decodeStage a b c s).status = s.status := rfl
@[simp] theorem decodeStage_stage (a b : RegIdx) (c : Field16) (s : State) : (decodeStage a b c s).stage = s.stage := rfl

/-! ### executeStage -/

@[simp] theorem executeStage_pc (v : Word) (s : State) : (executeStage v s).pc = s.pc := rfl
@[simp] theorem executeStage_instrmem (v : Word) (s : State) : (executeStage v s).instrmem = s.instrmem := rfl
@[simp] theorem executeStage_datamem (v : Word) (s : State) : (executeStage v s).datamem = s.datamem := rfl
@[simp] theorem executeStage_reg (v : Word) (s : State) : (executeStage v s).reg = s.reg := rfl
@[simp] theorem executeStage_ifid (v : Word) (s : State) : (executeStage v s).ifid = s.ifid := rfl
@[simp] theorem executeStage_idex (v : Word) (s : State) : (executeStage v s).idex = s.idex := rfl
@[simp] theorem executeStage_exmem (v : Word) (s : State) :
    (executeStage v s).exmem =
      { instr := s.idex.instr, branchTarget := branchTargetOf s.idex.pc1 s.idex.offset, aluResult := v, readReg := s.idex.regA } := rfl
@[simp] theorem executeStage_memwb (v : Word) (s : State) : (executeStage v s).memwb = s.memwb := rfl
@[simp] theorem executeStage_wbend (v : Word) (s : State) : (executeStage v s).wbend = s.wbend := rfl
@[simp] theorem executeStage_cycles (v : Word) (s : State) : (executeStage v s).cycles = s.cycles := rfl
@[simp] theorem executeStage_fetched (v : Word) (s : State) : (executeStage v s).fetched = s.fetched := rfl
@[simp] theorem executeStage_retired (v : Word) (s : State) : (executeStage v s).retired = s.retired := rfl
@[simp] theorem executeStage_branches (v : Word) (s : State) : (executeStage v s).branches = s.branches := rfl
@[simp] theorem executeStage_mispreds (v : Word) (s : State) : (executeStage v s).mispreds = s.mispreds := rfl
@[simp] theorem executeStage_status (v : Word) (s : State) : (executeStage v s).status = s.status := rfl
@[simp] theorem executeStage_stage (v : Word) (s : State) : (executeStage v s).stage = s.stage := rfl

/-! ### memoryPass -/

@[simp] theorem memoryPass_pc (v : Word) (s : State) : (memoryPass v s).pc = s.pc := rfl
@[simp] theorem memoryPass_instrmem (v : Word) (s : State) : (memoryPass v s).instrmem = s.instrmem := rfl
@[simp] theorem memoryPass_datamem (v : Word) (s : State) : (memoryPass v s).datamem = s.datamem := rfl
@[simp] theorem memoryPass_reg (v : Word) (s : State) : (memoryPass v s).reg = s.reg := rfl
@[simp] theorem memoryPass_ifid (v : Word) (s : State) : (memoryPass v s).ifid = s.ifid := rfl
@[simp] theorem memoryPass_idex (v : Word) (s : State) : (memoryPass v s).idex = s.idex := rfl
@[simp] theorem memoryPass_exmem (v : Word) (s : State) : (memoryPass v s).exmem = s.exmem := rfl
@[simp] theorem memoryPass_memwb (v : Word) (s : State) : (memoryPass v s).memwb = { instr := s.exmem.instr, writeData := v } := rfl
@[simp] theorem memoryPass_wbend (v : Word) (s : State) : (memoryPass v s).wbend = s.wbend := rfl
@[simp] theorem memoryPass_cycles (v : Word) (s : State) : (memoryPass v s).cycles = s.cycles := rfl
@[simp] theorem memoryPass_fetched (v : Word) (s : State) : (memoryPass v s).fetched = s.fetched := rfl
@[simp] theorem memoryPass_retired (v : Word) (s : State) : (memoryPass v s).retired = s.retired := rfl
@[simp] theorem memoryPass_branches (v : Word) (s : State) : (memoryPass v s).branches = s.branches := rfl
@[simp] theorem memoryPass_mispreds (v : Word) (s : State) : (memoryPass v s).mispreds = s.mispreds := rfl
@[simp] theorem memoryPass_status (v : Word) (s : State) : (memoryPass v s).status = s.status := rfl
@[simp] theorem memoryPass_stage (v : Word) (s : State) : (memoryPass v s).stage = s.stage := rfl

/-! ### memoryHold -/

@[simp] theorem memoryHold_pc (s : State) : (memoryHold s).pc = s.pc := rfl
@[simp] theorem memoryHold_instrmem (s : State) : (memoryHold s).instrmem = s.instrmem := rfl
@[simp] theorem memoryHold_datamem (s : State) : (memoryHold s).datamem = s.datamem := rfl
@[simp] theorem memoryHold_reg (s : State) : (memoryHold s).reg = s.reg := rfl
@[simp] theorem memoryHold_ifid (s : State) : (memoryHold s).ifid = s.ifid := rfl
@[simp] theorem memoryHold_idex (s : State) : (memoryHold s).idex = s.idex := rfl
@[simp] theorem memoryHold_exmem (s : State) : (memoryHold s).exmem = s.exmem := rfl
@[simp] theorem memoryHold_memwb (s : State) : (memoryHold s).memwb = { instr := s.exmem.instr, writeData := s.memwb.writeData } := rfl
@[simp] theorem memoryHold_wbend (s : State) : (memoryHold s).wbend = s.wbend := rfl
@[simp] theorem memoryHold_cycles (s : State) : (memoryHold s).cycles = s.cycles := rfl
@[simp] theorem memoryHold_fetched (s : State) : (memoryHold s).fetched = s.fetched := rfl
@[simp] theorem memoryHold_retired (s : State) : (memoryHold s).retired = s.retired := rfl
@[simp] theorem memoryHold_branches (s : State) : (memoryHold s).branches = s.branches := rfl
@[simp] theorem memoryHold_mispreds (s : State) : (memoryHold s).mispreds = s.mispreds := rfl
@[simp] theorem memoryHold_status (s : State) : (memoryHold s).status = s.status := rfl
@[simp] theorem memoryHold_stage (s : State) : (memoryHold s).stage = s.stage := rfl

/-! ### writebackCopy -/

@[simp] theorem writebackCopy_pc (s : State) : (writebackCopy s).pc = s.pc := rfl
@[simp] theorem writebackCopy_instrmem (s : State) : (writebackCopy s).instrmem = s.instrmem := rfl
@[simp] theorem writebackCopy_datamem (s : State) : (writebackCopy s).datamem = s.datamem := rfl
@[simp] theorem writebackCopy_reg (s : State) : (writebackCopy s).reg = s.reg := rfl
@[simp] theorem writebackCopy_ifid (s : State) : (writebackCopy s).ifid = s.ifid := rfl
@[simp] theorem writebackCopy_idex (s : State) : (writebackCopy s).idex = s.idex := rfl
@[simp] theorem writebackCopy_exmem (s : State) : (writebackCopy s).exmem = s.exmem := rfl
@[simp] theorem writebackCopy_memwb (s : State) : (writebackCopy s).memwb = s.memwb := rfl
@[simp] theorem writebackCopy_wbend (s : State) : (writebackCopy s).wbend = { instr := s.memwb.instr, writeData := s.memwb.writeData } := rfl
@[simp] theorem writebackCopy_cycles (s : State) : (writebackCopy s).cycles = s.cycles := rfl
@[simp] theorem writebackCopy_fetched (s : State) : (writebackCopy s).fetched = s.fetched := rfl
@[simp] theorem writebackCopy_retired (s : State) : (writebackCopy s).retired = s.retired := rfl
@[simp] theorem writebackCopy_branches (s : State) : (writebackCopy s).branches = s.branches := rfl
@[simp] theorem writebackCopy_mispreds (s : State) : (writebackCopy s).mispreds = s.mispreds := rfl
@[simp] theorem writebackCopy_status (s : State) : (writebackCopy s).status = s.status := rfl
@[simp] theorem writebackCopy_stage (s : State) : (writebackCopy s).stage = s.stage := rfl

/-! ### writebackRetire -/

@[simp] theorem writebackRetire_pc (s : State) : (writebackRetire s).pc = s.pc := rfl
@[simp] theorem writebackRetire_instrmem (s : State) : (writebackRetire s).instrmem = s.instrmem := rfl
@[simp] theorem writebackRetire_datamem (s : State) : (writebackRetire s).datamem = s.datamem := rfl
@[simp] theorem writebackRetire_reg (s : State) : (writebackRetire s).reg = s.reg := rfl
@[simp] theorem writebackRetire_ifid (s : State) : (writebackRetire s).ifid = s.ifid := rfl
@[simp] theorem writebackRetire_idex (s : State) : (writebackRetire s).idex = s.idex := rfl
@[simp] theorem writebackRetire_exmem (s : State) : (writebackRetire s).exmem = s.exmem := rfl
@[simp] theorem writebackRetire_memwb (s : State) : (writebackRetire s).memwb = s.memwb := rfl
@[simp] theorem writebackRetire_wbend (s : State) : (writebackRetire s).wbend = { instr := s.memwb.instr, writeData := s.memwb.writeData } := rfl
@[simp] theorem writebackRetire_cycles (s : State) : (writebackRetire s).cycles = s.cycles := rfl
@[simp] theorem writebackRetire_fetched (s : State) : (writebackRetire s).fetched = s.fetched := rfl
@[simp] theorem writebackRetire_retired (s : State) : (writebackRetire s).retired = s.retired + 1 := rfl
@[simp] theorem writebackRetire_branches (s : State) : (writebackRetire s).branches = s.branches := rfl
@[simp] theorem writebackRetire_mispreds (s : State) : (writebackRetire s).mispreds = s.mispreds := rfl
@[simp] theorem writebackRetire_status (s : State) : (writebackRetire s).status = s.status := rfl
@[simp] theorem writebackRetire_stage (s : State) : (writebackRetire s).stage = s.stage := rfl

/-! ### writebackReg -/

@[simp] theorem writebackReg_pc (r : RegIdx) (s : State) : (writebackReg r s).pc = s.pc := rfl
@[simp] theorem writebackReg_instrmem (r : RegIdx) (s : State) : (writebackReg r s).instrmem = s.instrmem := rfl
@[simp] theorem writebackReg_datamem (r : RegIdx) (s : State) : (writebackReg r s).datamem = s.datamem := rfl
@[simp] theorem writebackReg_reg (r : RegIdx) (s : State) : (writebackReg r s).reg = regWrite s.reg r s.memwb.writeData := rfl
@[simp] theorem writebackReg_ifid (r : RegIdx) (s : State) : (writebackReg r s).ifid = s.ifid := rfl
@[simp] theorem writebackReg_idex (r : RegIdx) (s : State) : (writebackReg r s).idex = s.idex := rfl
@[simp] theorem writebackReg_exmem (r : RegIdx) (s : State) : (writebackReg r s).exmem = s.exmem := rfl
@[simp] theorem writebackReg_memwb (r : RegIdx) (s : State) : (writebackReg r s).memwb = s.memwb := rfl
@[simp] theorem writebackReg_wbend (r : RegIdx) (s : State) :
    (writebackReg r s).wbend =
      { instr := s.memwb.instr, writeData := s.memwb.writeData } := rfl
@[simp] theorem writebackReg_cycles (r : RegIdx) (s : State) : (writebackReg r s).cycles = s.cycles := rfl
@[simp] theorem writebackReg_fetched (r : RegIdx) (s : State) : (writebackReg r s).fetched = s.fetched := rfl
@[simp] theorem writebackReg_retired (r : RegIdx) (s : State) : (writebackReg r s).retired = s.retired + 1 := rfl
@[simp] theorem writebackReg_branches (r : RegIdx) (s : State) : (writebackReg r s).branches = s.branches := rfl
@[simp] theorem writebackReg_mispreds (r : RegIdx) (s : State) : (writebackReg r s).mispreds = s.mispreds := rfl
@[simp] theorem writebackReg_status (r : RegIdx) (s : State) : (writebackReg r s).status = s.status := rfl
@[simp] theorem writebackReg_stage (r : RegIdx) (s : State) : (writebackReg r s).stage = s.stage := rfl

/-- Setting the model's own field twice is setting it once. -/
@[simp] theorem State.atStage_atStage (s : State) (j k : Stage) : (s.atStage j).atStage k = s.atStage k := rfl

/-- Setting the model's own field to what it is changes nothing. -/
@[simp] theorem State.atStage_self (s : State) : s.atStage s.stage = s := rfl

/-- Two states are equal when every field is. -/
theorem State.ext_fields {s t : State} (h1 : s.pc = t.pc) (h2 : s.instrmem = t.instrmem) (h3 : s.datamem = t.datamem)
    (h4 : s.reg = t.reg) (h5 : s.ifid = t.ifid) (h6 : s.idex = t.idex) (h7 : s.exmem = t.exmem) (h8 : s.memwb = t.memwb)
    (h9 : s.wbend = t.wbend) (h10 : s.cycles = t.cycles) (h11 : s.fetched = t.fetched) (h12 : s.retired = t.retired)
    (h13 : s.branches = t.branches) (h14 : s.mispreds = t.mispreds) (h15 : s.status = t.status) (h16 : s.stage = t.stage) :
    s = t := by
  cases s
  cases t
  simp_all

end Sys2Proof.Machine
end

