-- ==== Sys2Proof/Laws/Exec.lean ====
section
/-!
SUPPORT. What every meaning answers, stage by stage, and what each conditional stage operation can do. The provers cite these instead of unfolding exec.
-/

namespace Sys2Proof.Machine

/-! ### The conditional operations: everything each can do -/

/-- Fetch takes the word at the pc, or raises FETCH_OOB. -/
theorem fetchStage_spec (s : State) :
    (inIM s.pc = true ∧
      fetchStage s =
        { s with
          ifid := { instr := s.instrmem.read s.pc.toNat, pc1 := incPc s.pc }
          pc := incPc s.pc
          fetched := if haltInFlight s then s.fetched else s.fetched + 1 }) ∨
    (inIM s.pc = false ∧ fetchStage s = raiseFault s .fetchOob .fetch s.pc none) := by
  unfold fetchStage
  cases h : inIM s.pc
  · exact .inr ⟨rfl, rfl⟩
  · exact .inl ⟨rfl, rfl⟩

/-- A load hands the word at its address on, or raises DATA_OOB. -/
theorem memoryLoad_spec (s : State) :
    (inDM s.exmem.aluResult = true ∧ memoryLoad s = memoryPass (s.datamem.read s.exmem.aluResult.toNat) s) ∨
    (inDM s.exmem.aluResult = false ∧
      memoryLoad s = raiseFault s .dataOob .memory s.exmem.aluResult (some s.exmem.instr)) := by
  unfold memoryLoad
  cases h : inDM s.exmem.aluResult
  · exact .inr ⟨rfl, rfl⟩
  · exact .inl ⟨rfl, rfl⟩

/-- A store writes the word at its address, or raises DATA_OOB. -/
theorem memoryStore_spec (s : State) :
    (inDM s.exmem.aluResult = true ∧
      memoryStore s =
        { memoryHold s with datamem := s.datamem.write s.exmem.aluResult.toNat s.exmem.readReg }) ∨
    (inDM s.exmem.aluResult = false ∧
      memoryStore s = raiseFault s .dataOob .memory s.exmem.aluResult (some s.exmem.instr)) := by
  unfold memoryStore
  cases h : inDM s.exmem.aluResult
  · exact .inr ⟨rfl, rfl⟩
  · exact .inl ⟨rfl, rfl⟩

/-- A branch sets the pc and is counted, or changes neither. -/
theorem memoryBranch_spec (s : State) :
    (branchTaken s.exmem.aluResult = true ∧
      memoryBranch s = { memoryHold s with pc := s.exmem.branchTarget, branches := s.branches + 1 }) ∨
    (branchTaken s.exmem.aluResult = false ∧ memoryBranch s = memoryHold s) := by
  unfold memoryBranch
  cases h : branchTaken s.exmem.aluResult
  · exact .inr ⟨rfl, rfl⟩
  · exact .inl ⟨rfl, rfl⟩

/-- Writeback to the register field C names, or REG_INDEX_OOB. -/
theorem writebackIndex_spec (c : Field16) (s : State) :
    (c.toNat < 8 ∧ writebackIndex c s = writebackReg (c.setWidth 3) s) ∨
    (8 ≤ c.toNat ∧
      writebackIndex c s = raiseFault s .regIndexOob .writeback (zext16 c) (some s.memwb.instr)) := by
  unfold writebackIndex Config.numRegs
  by_cases h : c.toNat < 8
  · exact .inl ⟨h, if_pos h⟩
  · exact .inr ⟨by omega, if_neg h⟩

/-! ### Every meaning, by stage -/

/-- The ALU result an instruction's meaning computes from ID/EX (R130). -/
def aluOf (i : Instr) (d : IDEX) : Word :=
  match i with
  | .add _ _ _ => aluAdd d.regA d.regB
  | .nand _ _ _ => aluNand d.regA d.regB
  | .lw _ _ _ => effectiveAddress d.regB d.offset
  | .sw _ _ _ => effectiveAddress d.regB d.offset
  | .beq _ _ _ => aluEqual d.regA d.regB
  | .jalr _ _ _ => 0
  | .halt _ _ _ => 0
  | .noop _ _ _ => 0
  | .unknown _ _ _ _ _ => 0

/-- The memory part of an instruction's meaning (R131). -/
def memoryOf (i : Instr) (s : State) : State :=
  match i with
  | .add _ _ _ => memoryPass s.exmem.aluResult s
  | .nand _ _ _ => memoryPass s.exmem.aluResult s
  | .lw _ _ _ => memoryLoad s
  | .sw _ _ _ => memoryStore s
  | .beq _ _ _ => memoryBranch s
  | .jalr _ _ _ => memoryPass 0 s
  | .halt _ _ _ => memoryPass 0 s
  | .noop _ _ _ => memoryPass 0 s
  | .unknown _ _ _ _ _ => memoryPass 0 s

/-- The writeback part of an instruction's meaning (R133), the halt for a HALT (R121). -/
def writebackOf (i : Instr) (s : State) : State :=
  match i with
  | .add _ _ c => writebackIndex c s
  | .nand _ _ c => writebackIndex c s
  | .lw a _ _ => writebackReg a s
  | .sw _ _ _ => writebackRetire s
  | .beq _ _ _ => writebackRetire s
  | .jalr _ _ _ => writebackCopy s
  | .halt _ _ _ => haltMachine s
  | .noop _ _ _ => writebackCopy s
  | .unknown _ _ _ _ _ => writebackCopy s

theorem exec_fetch (i : Instr) (s : State) (h : s.stage = .fetch) : exec i s = .next (fetchStage s) := by
  cases i <;> simp only [exec, execAdd, execNand, execLw, execSw, execBeq, execJalr, execHalt, execNoop, execUnknown, h]

theorem exec_decode (i : Instr) (s : State) (h : s.stage = .decode) :
    exec i s = .next (decodeStage i.fieldA i.fieldB i.fieldC s) := by
  cases i <;> simp only [exec, execAdd, execNand, execLw, execSw, execBeq, execJalr, execHalt, execNoop, execUnknown, h] <;> rfl

theorem exec_execute (i : Instr) (s : State) (h : s.stage = .execute) :
    exec i s = .next (executeStage (aluOf i s.idex) s) := by
  cases i <;> simp only [exec, execAdd, execNand, execLw, execSw, execBeq, execJalr, execHalt, execNoop, execUnknown, h] <;> rfl

theorem exec_memory (i : Instr) (s : State) (h : s.stage = .memory) : exec i s = .next (memoryOf i s) := by
  cases i <;> simp only [exec, execAdd, execNand, execLw, execSw, execBeq, execJalr, execHalt, execNoop, execUnknown, h] <;> rfl

theorem exec_writeback (i : Instr) (s : State) (h : s.stage = .writeback) : exec i s = .next (writebackOf i s) := by
  cases i <;> simp only [exec, execAdd, execNand, execLw, execSw, execBeq, execJalr, execHalt, execNoop, execUnknown, h] <;> rfl

/-! ### The parts of a cycle -/

theorem stagePart_fetch (w : Word) (s : State) : stagePart .fetch w s = .next (fetchStage (s.atStage .fetch)) :=
  exec_fetch _ _ rfl

theorem stagePart_decode (w : Word) (s : State) :
    stagePart .decode w s =
      .next (decodeStage (decode w).fieldA (decode w).fieldB (decode w).fieldC (s.atStage .decode)) :=
  exec_decode _ _ rfl

theorem stagePart_execute (w : Word) (s : State) :
    stagePart .execute w s = .next (executeStage (aluOf (decode w) s.idex) (s.atStage .execute)) :=
  exec_execute _ _ rfl

theorem stagePart_memory (w : Word) (s : State) :
    stagePart .memory w s = .next (memoryOf (decode w) (s.atStage .memory)) :=
  exec_memory _ _ rfl

theorem stagePart_writeback (w : Word) (s : State) :
    stagePart .writeback w s = .next (writebackOf (decode w) (s.atStage .writeback)) :=
  exec_writeback _ _ rfl

theorem haltInFlight_atStage (s : State) (k : Stage) : haltInFlight (s.atStage k) = haltInFlight s := rfl

end Sys2Proof.Machine
end

