-- ==== Sys2Proof/Laws/Memory.lean ====
section
/-!
SUPPORT. The two memories and the register file: a read after a write, the places a write leaves alone, and the canonical form that every memory operation
keeps.
-/

namespace Sys2Proof.Machine

/-- The canonical form, cell by cell. -/
theorem Memory.wfFrom_cons (lo k : Nat) (v : Word) (rest : Memory) :
    Memory.wfFrom lo ((k, v) :: rest) = true ↔ lo ≤ k ∧ k < 65536 ∧ v ≠ 0 ∧ Memory.wfFrom (k + 1) rest = true := by
  simp only [Memory.wfFrom, Bool.and_eq_true, decide_eq_true_eq, bne_iff_ne, ne_eq, and_assoc]
  rfl

/-! ### Reading what was put -/

/-- Below the form's first address every word reads as an unlisted one. -/
theorem Memory.read_of_lt : ∀ {m : Memory} {lo a : Nat}, Memory.wfFrom lo m = true → a < lo →
    Memory.read m a = Config.unlistedWord
  | [], _, _, _, _ => rfl
  | (k, v) :: rest, lo, a, hm, ha => by
    simp only [Memory.wfFrom, Bool.and_eq_true, decide_eq_true_eq] at hm
    simp only [Memory.read]
    rw [if_neg (by omega)]
    exact Memory.read_of_lt hm.2 (by omega)

/-- Put, then read, on a memory in canonical form. -/
theorem Memory.read_put : ∀ {m : Memory} {lo : Nat} (a : Nat) (v : Word) (b : Nat), Memory.wfFrom lo m = true →
    Memory.read (Memory.put m a v) b = if b = a then v else Memory.read m b
  | [], lo, a, v, b, _ => by
    by_cases hv : v = Config.unlistedWord <;> by_cases hb : b = a <;> simp [Memory.put, Memory.read, hv, hb]
  | (k, u) :: rest, lo, a, v, b, hm => by
    simp only [Memory.wfFrom, Bool.and_eq_true, decide_eq_true_eq] at hm
    have ih := Memory.read_put (m := rest) (lo := k + 1) a v b hm.2
    simp only [Memory.put]
    split
    · rename_i hlt
      split
      · rename_i hv
        by_cases hb : b = a
        · subst hb
          simp only [Memory.read, if_true]
          rw [if_neg (by omega), hv]
          exact Memory.read_of_lt hm.2 (by omega)
        · simp [hb]
      · by_cases hb : b = a <;> simp [Memory.read, hb]
    · split
      · rename_i hak
        subst hak
        split
        · rename_i hv
          by_cases hb : b = a
          · subst hb
            simp only [if_true]
            rw [hv]
            exact Memory.read_of_lt hm.2 (by omega)
          · simp [Memory.read, hb]
        · by_cases hb : b = a <;> simp [Memory.read, hb]
      · rename_i h1 h2
        simp only [Memory.read]
        by_cases hbk : b = k
        · subst hbk
          rw [if_pos rfl, if_neg (by omega), if_pos rfl]
        · rw [if_neg hbk, if_neg hbk]
          exact ih

/-- A write, then a read, of a memory in canonical form: the written word at its address, every other word as before. -/
theorem Memory.read_write {m : Memory} (hm : Memory.wf m = true) {a : Nat} (ha : a < 65536) (v : Word) (b : Nat) :
    Memory.read (Memory.write m a v) b = if b = a then v else Memory.read m b := by
  simp only [Memory.write, Config.dmemWords, ha, if_true]
  exact Memory.read_put a v b hm

/-! ### The canonical form -/

theorem Memory.wfFrom_mono : ∀ {m : Memory} {lo lo' : Nat}, Memory.wfFrom lo m = true → lo' ≤ lo → Memory.wfFrom lo' m = true
  | [], _, _, _, _ => rfl
  | (k, v) :: rest, lo, lo', hm, hle => by
    simp only [Memory.wfFrom, Bool.and_eq_true, decide_eq_true_eq] at hm ⊢
    exact ⟨⟨⟨by omega, hm.1.1.2⟩, hm.1.2⟩, hm.2⟩

theorem Memory.wfFrom_put : ∀ {m : Memory} {lo : Nat} {a : Nat} (v : Word), Memory.wfFrom lo m = true → lo ≤ a →
    a < 65536 → Memory.wfFrom lo (Memory.put m a v) = true
  | [], lo, a, v, _, hlo, ha => by
    simp only [Memory.put]
    split
    · rfl
    · rename_i hv
      exact (Memory.wfFrom_cons _ _ _ _).2 ⟨hlo, ha, hv, rfl⟩
  | (k, u) :: rest, lo, a, v, hm, hlo, ha => by
    have hm' := hm
    simp only [Memory.wfFrom, Bool.and_eq_true, decide_eq_true_eq] at hm'
    simp only [Memory.put]
    split
    · rename_i hlt
      split
      · exact hm
      · rename_i hv
        rw [Memory.wfFrom_cons] at hm ⊢
        exact ⟨hlo, ha, hv, (Memory.wfFrom_cons _ _ _ _).2 ⟨by omega, hm.2⟩⟩
    · split
      · rename_i hak
        subst hak
        split
        · exact Memory.wfFrom_mono hm'.2 (by omega)
        · rename_i hv
          exact (Memory.wfFrom_cons _ _ _ _).2 ⟨hlo, ha, hv, hm'.2⟩
      · simp only [Memory.wfFrom, Bool.and_eq_true, decide_eq_true_eq]
        exact ⟨hm'.1, Memory.wfFrom_put v hm'.2 (by omega) ha⟩

/-- Every write keeps the canonical form. -/
theorem Memory.wf_write {m : Memory} (hm : Memory.wf m = true) (a : Nat) (v : Word) :
    Memory.wf (Memory.write m a v) = true := by
  unfold Memory.write
  split
  · rename_i ha
    exact Memory.wfFrom_put v hm (Nat.zero_le a) ha
  · exact hm

/-! ### The image -/

theorem Memory.wfFrom_ofWordsFrom : ∀ (ws : List Word) (a : Nat), a + ws.length ≤ 65536 →
    Memory.wfFrom a (Memory.ofWordsFrom a ws) = true
  | [], _, _ => rfl
  | w :: ws, a, h => by
    simp only [List.length_cons] at h
    have ih := Memory.wfFrom_ofWordsFrom ws (a + 1) (by omega)
    simp only [Memory.ofWordsFrom]
    split
    · exact Memory.wfFrom_mono ih (by omega)
    · rename_i hw
      exact (Memory.wfFrom_cons _ _ _ _).2 ⟨Nat.le_refl a, by omega, hw, ih⟩

/-- The memory of an image is in canonical form. -/
theorem Memory.wf_ofWords (ws : List Word) (h : ws.length ≤ 65536) : Memory.wf (Memory.ofWords ws) = true :=
  Memory.wfFrom_ofWordsFrom ws 0 (by omega)

theorem Memory.read_ofWordsFrom_of_lt : ∀ (ws : List Word) (a i : Nat), i < a →
    Memory.read (Memory.ofWordsFrom a ws) i = Config.unlistedWord
  | [], _, _, _ => rfl
  | w :: ws, a, i, h => by
    have ih := Memory.read_ofWordsFrom_of_lt ws (a + 1) i (by omega)
    simp only [Memory.ofWordsFrom]
    split
    · exact ih
    · simp only [Memory.read]
      rw [if_neg (by omega), ih]

theorem Memory.read_ofWordsFrom : ∀ (ws : List Word) (a i : Nat),
    Memory.read (Memory.ofWordsFrom a ws) (a + i) = ws.getD i 0
  | [], _, _ => rfl
  | w :: ws, a, 0 => by
    simp only [Memory.ofWordsFrom]
    split
    · rename_i hw
      rw [Memory.read_ofWordsFrom_of_lt ws (a + 1) (a + 0) (by omega)]
      simp [hw]
    · simp [Memory.read]
  | w :: ws, a, i + 1 => by
    have ih := Memory.read_ofWordsFrom ws (a + 1) i
    have e : a + (i + 1) = a + 1 + i := by omega
    simp only [Memory.ofWordsFrom]
    split
    · rw [e, ih]; simp
    · simp only [Memory.read]
      rw [if_neg (by omega), e, ih]
      simp

/-- Word i of an image is at address i; past the image every word is 0 (R251). -/
theorem Memory.read_ofWords (ws : List Word) (i : Nat) : Memory.read (Memory.ofWords ws) i = ws.getD i 0 := by
  have := Memory.read_ofWordsFrom ws 0 i
  simpa [Memory.ofWords] using this

/-! ### The register file -/

/-- A register write, then a read: the written word, every other register as before. -/
theorem regRead_regWrite (r : RegFile) (i j : RegIdx) (v : Word) :
    regRead (regWrite r i v) j = if j = i then v else regRead r j := by
  unfold regRead regWrite
  rw [Vector.getElem_set]
  by_cases h : j = i
  · subst h; simp
  · rw [if_neg h, if_neg (fun e => h (BitVec.eq_of_toNat_eq e.symm))]

@[simp] theorem regRead_regWrite_self (r : RegFile) (i : RegIdx) (v : Word) : regRead (regWrite r i v) i = v := by
  simp [regRead_regWrite]

end Sys2Proof.Machine
end

