-- ==== Sys2Proof/Laws/Operands.lean ====
section
/-!
SUPPORT. The datapath arithmetic as bit-vector arithmetic and as integer arithmetic: one lemma per function of Machine/Operands.lean and
Machine/Flags.lean.
-/

namespace Sys2Proof.Machine

/-- The integer sum, narrowed once, is the 32-bit sum. -/
theorem wrap32_add_toInt (a b : Word) : wrap32 (a.toInt + b.toInt) = a + b := by
  simp [wrap32, BitVec.ofInt_add, BitVec.ofInt_toInt]

theorem aluAdd_eq_add (a b : Word) : aluAdd a b = a + b := wrap32_add_toInt a b

theorem effectiveAddress_eq_add (base offset : Word) : effectiveAddress base offset = base + offset :=
  wrap32_add_toInt base offset

theorem branchTargetOf_eq_add (pc1 offset : Word) : branchTargetOf pc1 offset = pc1 + offset :=
  wrap32_add_toInt pc1 offset

theorem incPc_eq_add_one (pc : Word) : incPc pc = pc + 1 := by
  simp [incPc, wrap32, BitVec.ofInt_add, BitVec.ofInt_toInt]

/-- Narrowing keeps an integer that is in the Word32 range. -/
theorem toInt_wrap32 {n : Int} (lo : -2147483648 ≤ n) (hi : n ≤ 2147483647) : (wrap32 n).toInt = n := by
  rw [wrap32, BitVec.toInt_ofInt, Int.bmod_def]
  omega

/-- A signed reading from 0 to 65535 is an unsigned reading below 65536. -/
theorem toInt_inRange_iff (a : Word) : (0 ≤ a.toInt ∧ a.toInt < 65536) ↔ a.toNat < 65536 := by
  have := a.isLt
  rw [BitVec.toInt_eq_toNat_cond]
  split <;> omega

theorem inIM_iff (a : Word) : inIM a = true ↔ a.toNat < 65536 := by
  rw [← toInt_inRange_iff]
  simp [inIM, Config.imemWords]

theorem inDM_iff (a : Word) : inDM a = true ↔ a.toNat < 65536 := by
  rw [← toInt_inRange_iff]
  simp [inDM, Config.dmemWords]

/-- `inDM` by the signed reading, as the spec writes it. -/
theorem inDM_iff_toInt (a : Word) : inDM a = true ↔ 0 ≤ a.toInt ∧ a.toInt ≤ 65535 := by
  simp [inDM, Config.dmemWords]
  omega

/-- `inIM` by the signed reading, as the spec writes it. -/
theorem inIM_iff_toInt (a : Word) : inIM a = true ↔ 0 ≤ a.toInt ∧ a.toInt ≤ 65535 := by
  simp [inIM, Config.imemWords]
  omega

theorem toInt_of_inIM {a : Word} (h : inIM a = true) : 0 ≤ a.toInt ∧ a.toInt ≤ 65535 := (inIM_iff_toInt a).1 h

/-- `sext_16` of a field, as an integer. -/
theorem sext16_toInt (c : Field16) :
    (sext16 c).toInt = if c.getLsbD 15 then (c.toNat : Int) - 65536 else (c.toNat : Int) := by
  have := c.isLt
  unfold sext16
  split <;> exact toInt_wrap32 (by omega) (by omega)

theorem getLsbD_15_iff (c : Field16) : c.getLsbD 15 = true ↔ 32768 ≤ c.toNat := by
  have := c.isLt
  rw [BitVec.getLsbD, Nat.testBit_eq_decide_div_mod_eq]
  simp
  omega

/-- The range of an offset. -/
theorem sext16_range (c : Field16) : -32768 ≤ (sext16 c).toInt ∧ (sext16 c).toInt ≤ 32767 := by
  have := c.isLt
  have h := getLsbD_15_iff c
  rw [sext16_toInt]
  split <;> constructor <;> simp_all <;> omega

/-- The branch target never leaves the Word32 range where the pc and the offset are in theirs. -/
theorem branchTargetOf_toInt {pc1 offset : Word} (h1 : 0 ≤ pc1.toInt ∧ pc1.toInt ≤ 65536)
    (h2 : -32768 ≤ offset.toInt ∧ offset.toInt ≤ 32767) :
    (branchTargetOf pc1 offset).toInt = pc1.toInt + offset.toInt :=
  toInt_wrap32 (by omega) (by omega)

/-- The incremented pc of a fetch never leaves the Word32 range. -/
theorem incPc_toInt {pc : Word} (h : inIM pc = true) : (incPc pc).toInt = pc.toInt + 1 := by
  have := toInt_of_inIM h
  exact toInt_wrap32 (by omega) (by omega)

theorem aluEqual_ne_zero_iff (a b : Word) : aluEqual a b ≠ 0 ↔ a = b := by
  unfold aluEqual
  split <;> simp_all

theorem branchTaken_aluEqual (a b : Word) : branchTaken (aluEqual a b) = decide (a = b) := by
  unfold branchTaken aluEqual
  split <;> simp_all

theorem zext16_toNat (c : Field16) : (zext16 c).toNat = c.toNat := by
  have := c.isLt
  simp [zext16]
  omega

end Sys2Proof.Machine
end

