-- ==== Sys2Proof/Laws/Step.lean ====
section
/-!
SUPPORT. Everything one step can do, said once: `step_cases` and `commits_iff`. The provers cite these and unfold neither step nor exec.
-/

namespace Sys2Proof.Machine

/-! ### The faults of a cycle, from the state it starts in -/

/-- The writeback fault of the cycle from `s` (R221). -/
def wbFault (s : State) : Option FaultRecord :=
  if (opOf s.memwb.instr = .add ∨ opOf s.memwb.instr = .nand) ∧ 8 ≤ (fC s.memwb.instr).toNat then
    some { cause := .regIndexOob, stage := .writeback, value := zext16 (fC s.memwb.instr), instr := some s.memwb.instr }
  else none

/-- The memory fault of the cycle from `s` (R221). -/
def memFault (s : State) : Option FaultRecord :=
  if (opOf s.exmem.instr = .lw ∨ opOf s.exmem.instr = .sw) ∧ inDM s.exmem.aluResult = false then
    some { cause := .dataOob, stage := .memory, value := s.exmem.aluResult, instr := some s.exmem.instr }
  else none

/-- The fetch fault of the cycle from `s` (R221). -/
def fetchFault (s : State) : Option FaultRecord :=
  if inIM s.pc = false then some { cause := .fetchOob, stage := .fetch, value := s.pc, instr := none } else none

/-- The fault the cycle from `s` reports (R224). -/
def raised (s : State) : Option FaultRecord := (wbFault s).or ((memFault s).or (fetchFault s))

/-! ### The state a committed cycle leaves, field by field -/

/-- The ALU by opcode class (R130). -/
def aluByOp (k : Op) (a b o : Word) : Word :=
  match k with
  | .add => aluAdd a b
  | .nand => aluNand a b
  | .lw => effectiveAddress b o
  | .sw => effectiveAddress b o
  | .beq => aluEqual a b
  | .jalr => 0
  | .halt => 0
  | .noop => 0
  | .unknown => 0

/-- The MEM/WB writeData multiplexer (R137). -/
def writeDataMux (s : State) : Word :=
  match opOf s.exmem.instr with
  | .add => s.exmem.aluResult
  | .nand => s.exmem.aluResult
  | .lw => s.datamem.read s.exmem.aluResult.toNat
  | .sw => s.memwb.writeData
  | .beq => s.memwb.writeData
  | .jalr => 0
  | .halt => 0
  | .noop => 0
  | .unknown => 0

/-- The register file after writeback (R133). -/
def regAfter (s : State) : RegFile :=
  match destination s.memwb.instr with
  | some r => regWrite s.reg r s.memwb.writeData
  | none => s.reg

/-- Data memory after the memory stage (R131). -/
def datamemAfter (s : State) : Memory :=
  if opOf s.exmem.instr = .sw then s.datamem.write s.exmem.aluResult.toNat s.exmem.readReg else s.datamem

/-- The state a committed cycle leaves (R124 to R134). -/
def committed (s : State) : State where
  pc := if brTaken s then s.exmem.branchTarget else incPc s.pc
  instrmem := s.instrmem
  datamem := datamemAfter s
  reg := regAfter s
  ifid := { instr := fetchedWord s, pc1 := incPc s.pc }
  idex :=
    { instr := s.ifid.instr, pc1 := s.ifid.pc1, regA := regRead s.reg (fA s.ifid.instr), regB := regRead s.reg (fB s.ifid.instr),
      offset := sext16 (fC s.ifid.instr) }
  exmem :=
    { instr := s.idex.instr, branchTarget := branchTargetOf s.idex.pc1 s.idex.offset,
      aluResult := aluByOp (opOf s.idex.instr) s.idex.regA s.idex.regB s.idex.offset, readReg := s.idex.regA }
  memwb := { instr := s.exmem.instr, writeData := writeDataMux s }
  wbend := { instr := s.memwb.instr, writeData := s.memwb.writeData }
  cycles := s.cycles + 1
  fetched := if haltInFlight s then s.fetched else s.fetched + 1
  retired := if retires s.memwb.instr then s.retired + 1 else s.retired
  branches := if brTaken s then s.branches + 1 else s.branches
  mispreds := s.mispreds
  status := s.status
  stage := s.stage

@[simp] theorem committed_pc (s : State) : (committed s).pc = if brTaken s then s.exmem.branchTarget else incPc s.pc := rfl
@[simp] theorem committed_instrmem (s : State) : (committed s).instrmem = s.instrmem := rfl
@[simp] theorem committed_datamem (s : State) : (committed s).datamem = datamemAfter s := rfl
@[simp] theorem committed_reg (s : State) : (committed s).reg = regAfter s := rfl
@[simp] theorem committed_ifid (s : State) : (committed s).ifid = { instr := fetchedWord s, pc1 := incPc s.pc } := rfl
@[simp] theorem committed_idex (s : State) :
    (committed s).idex =
      { instr := s.ifid.instr, pc1 := s.ifid.pc1, regA := regRead s.reg (fA s.ifid.instr),
        regB := regRead s.reg (fB s.ifid.instr), offset := sext16 (fC s.ifid.instr) } := rfl
@[simp] theorem committed_exmem (s : State) :
    (committed s).exmem =
      { instr := s.idex.instr, branchTarget := branchTargetOf s.idex.pc1 s.idex.offset,
        aluResult := aluByOp (opOf s.idex.instr) s.idex.regA s.idex.regB s.idex.offset, readReg := s.idex.regA } := rfl
@[simp] theorem committed_memwb (s : State) :
    (committed s).memwb = { instr := s.exmem.instr, writeData := writeDataMux s } := rfl
@[simp] theorem committed_wbend (s : State) :
    (committed s).wbend = { instr := s.memwb.instr, writeData := s.memwb.writeData } := rfl
@[simp] theorem committed_cycles (s : State) : (committed s).cycles = s.cycles + 1 := rfl
@[simp] theorem committed_fetched (s : State) :
    (committed s).fetched = if haltInFlight s then s.fetched else s.fetched + 1 := rfl
@[simp] theorem committed_retired (s : State) :
    (committed s).retired = if retires s.memwb.instr then s.retired + 1 else s.retired := rfl
@[simp] theorem committed_branches (s : State) :
    (committed s).branches = if brTaken s then s.branches + 1 else s.branches := rfl
@[simp] theorem committed_mispreds (s : State) : (committed s).mispreds = s.mispreds := rfl
@[simp] theorem committed_status (s : State) : (committed s).status = s.status := rfl
@[simp] theorem committed_stage (s : State) : (committed s).stage = s.stage := rfl

/-! ### The parts of a cycle, from the opcode classes -/

theorem aluOf_decode (w : Word) (d : IDEX) : aluOf (decode w) d = aluByOp (opOf w) d.regA d.regB d.offset := by
  rw [decode_eq_of_op]
  cases opOf w <;> rfl

theorem haltDetect_iff (s : State) : haltDetect s = true ↔ opOf s.memwb.instr = .halt := by
  simp [haltDetect, isHalt]

theorem brTaken_iff (s : State) : brTaken s = true ↔ opOf s.exmem.instr = .beq ∧ s.exmem.aluResult ≠ 0 := by
  simp [brTaken, branchTaken]

theorem faultOf_of_running {t : State} (h : t.status = .running) : faultOf t = none := by simp [faultOf, h]

/-- The fetch part of a cycle: its fault, or its fields. -/
theorem fetchStage_part (s : State) (h : s.status = .running) :
    let f := fetchStage (s.atStage .fetch)
    faultOf f = fetchFault s ∧
      (fetchFault s = none → f.pc = incPc s.pc ∧ f.ifid = { instr := fetchedWord s, pc1 := incPc s.pc } ∧
        f.fetched = if haltInFlight s then s.fetched else s.fetched + 1) := by
  have := fetchStage_spec (s.atStage .fetch)
  simp only [State.atStage_pc] at this
  rcases this with ⟨h1, h2⟩ | ⟨h1, h2⟩
  · simp [h2, fetchFault, h1, faultOf, h, haltInFlight_atStage, fetchedWord]
    rfl
  · simp [h2, fetchFault, h1, faultOf]

/-- The memory part of a cycle: its fault, or its fields. -/
theorem memoryOf_part (s : State) (h : s.status = .running) :
    let m := memoryOf (decode s.exmem.instr) (s.atStage .memory)
    faultOf m = memFault s ∧
      (memFault s = none → m.datamem = datamemAfter s ∧ m.memwb = { instr := s.exmem.instr, writeData := writeDataMux s } ∧
        m.branches = (if brTaken s then s.branches + 1 else s.branches) ∧ (brTaken s = true → m.pc = s.exmem.branchTarget)) := by
  rw [decode_eq_of_op]
  have hl := memoryLoad_spec (s.atStage .memory)
  have hs := memoryStore_spec (s.atStage .memory)
  have hb := memoryBranch_spec (s.atStage .memory)
  simp only [State.atStage_exmem] at hl hs hb
  cases ho : opOf s.exmem.instr
  case lw =>
    rcases hl with ⟨h1, h2⟩ | ⟨h1, h2⟩ <;>
      simp [memoryOf, h2, memFault, ho, h1, faultOf, h, datamemAfter, writeDataMux, brTaken]
  case sw =>
    rcases hs with ⟨h1, h2⟩ | ⟨h1, h2⟩ <;>
      simp [memoryOf, h2, memFault, ho, h1, faultOf, h, datamemAfter, writeDataMux, brTaken]
  case beq =>
    rcases hb with ⟨h1, h2⟩ | ⟨h1, h2⟩ <;>
      simp [memoryOf, h2, memFault, ho, h1, faultOf, h, datamemAfter, writeDataMux, brTaken]
  all_goals simp [memoryOf, memFault, ho, faultOf, h, datamemAfter, writeDataMux, brTaken]

/-- The writeback part of a cycle without a HALT in MEM/WB: its fault, or its fields. -/
theorem writebackOf_part (s : State) (h : s.status = .running) (hh : opOf s.memwb.instr ≠ .halt) :
    let w := writebackOf (decode s.memwb.instr) (s.atStage .writeback)
    faultOf w = wbFault s ∧
      (wbFault s = none → w.reg = regAfter s ∧
        w.wbend = { instr := s.memwb.instr, writeData := s.memwb.writeData } ∧
        w.retired = if retires s.memwb.instr then s.retired + 1 else s.retired) := by
  rw [decode_eq_of_op]
  have hi := writebackIndex_spec (fC s.memwb.instr) (s.atStage .writeback)
  cases ho : opOf s.memwb.instr
  case halt => exact absurd ho hh
  case add =>
    rcases hi with ⟨h1, h2⟩ | ⟨h1, h2⟩ <;>
      simp [writebackOf, h2, wbFault, ho, h1, faultOf, h, regAfter, destination, retires]
  case nand =>
    rcases hi with ⟨h1, h2⟩ | ⟨h1, h2⟩ <;>
      simp [writebackOf, h2, wbFault, ho, h1, faultOf, h, regAfter, destination, retires]
  all_goals simp [writebackOf, wbFault, ho, faultOf, h, regAfter, destination, retires]

/-! ### The step -/

/-- A cycle is the commit of its five parts. -/
theorem cycle_eq_commit (s : State) :
    cycle s =
      .next (commit s (fetchStage (s.atStage .fetch))
        (decodeStage (decode s.ifid.instr).fieldA (decode s.ifid.instr).fieldB (decode s.ifid.instr).fieldC (s.atStage .decode))
        (executeStage (aluOf (decode s.idex.instr) s.idex) (s.atStage .execute))
        (memoryOf (decode s.exmem.instr) (s.atStage .memory))
        (writebackOf (decode s.memwb.instr) (s.atStage .writeback))) := by
  have hf : fetchPart s = .next (fetchStage (s.atStage .fetch)) := by
    unfold fetchPart
    split
    · exact stagePart_fetch _ _
    · rfl
  simp only [cycle, hf, stagePart_decode, stagePart_execute, stagePart_memory, stagePart_writeback, andThen]

/-- A cycle of a running machine with no HALT in MEM/WB reports its oldest fault, or commits. -/
theorem cycle_eq (s : State) (h : s.status = .running) (hh : opOf s.memwb.instr ≠ .halt) :
    cycle s =
      .next (match raised s with
        | some r => { s with status := .faulted r }
        | none => committed s) := by
  rw [cycle_eq_commit]
  obtain ⟨hf, hf'⟩ := fetchStage_part s h
  obtain ⟨hm, hm'⟩ := memoryOf_part s h
  obtain ⟨hw, hw'⟩ := writebackOf_part s h hh
  congr 1
  unfold commit oldestFault raised
  rw [hf, hm, hw]
  cases h1 : wbFault s with
  | some r => rfl
  | none =>
    cases h2 : memFault s with
    | some r => rfl
    | none =>
      cases h3 : fetchFault s with
      | some r => rfl
      | none =>
        obtain ⟨a1, a2, a3⟩ := hf' h3
        obtain ⟨b1, b2, b3, b4⟩ := hm' h2
        obtain ⟨c1, c2, c3⟩ := hw' h1
        have hp : nextPc s (fetchStage (s.atStage .fetch)) (memoryOf (decode s.exmem.instr) (s.atStage .memory)) =
            if brTaken s then s.exmem.branchTarget else incPc s.pc := by
          unfold nextPc
          split
          · rename_i hb; exact b4 hb
          · exact a1
        simp only [Option.or, hp, a2, a3, b1, b2, b3, c1, c2, c3, committed, decodeStage_idex, executeStage_exmem,
          State.atStage_ifid, State.atStage_reg, State.atStage_idex, fieldA_decode, fieldB_decode, fieldC_decode, aluOf_decode]

/-- The halt check's tick (R121). -/
theorem haltTick_eq (s : State) (hh : opOf s.memwb.instr = .halt) : haltTick s = .next (haltMachine s) := by
  unfold haltTick
  rw [stagePart_writeback, decode_eq_of_op, hh]
  rfl

/-- The state one tick leaves. -/
def nextState (s : State) : State :=
  match s.status with
  | .halted => s
  | .faulted _ => s
  | .running =>
    if opOf s.memwb.instr = .halt then haltMachine s
    else
      match raised s with
      | some r => { s with status := .faulted r }
      | none => committed s

/-- Every step answers a next state (R138). -/
theorem step_eq (s : State) : step s = .next (nextState s) := by
  unfold step tick nextState
  cases h : s.status with
  | halted => rfl
  | faulted r => rfl
  | running =>
    by_cases hh : opOf s.memwb.instr = .halt
    · simp only [(haltDetect_iff s).2 hh, if_true, hh, haltTick_eq s hh]
    · have hd : haltDetect s = false := by
        rw [← Bool.not_eq_true, haltDetect_iff]; exact hh
      simp only [hd, hh, if_false, cycle_eq s h hh]
      rfl

/-- One more tick. -/
theorem ticks_succ (n : Nat) (s : State) : ticks (n + 1) s = ticks n (nextState s) := by
  rw [ticks, step_eq]
  rfl

/-- A property that every step keeps holds after any number of ticks. -/
theorem ticks_induction {Q : State → Prop} (hq : ∀ s t, Q s → step s = .next t → Q t) :
    ∀ (n : Nat) (s t : State), Q s → ticks n s = .next t → Q t
  | 0, s, t, h, hr => by
    injection hr with e
    exact e ▸ h
  | n + 1, s, t, h, hr => ticks_induction hq n (nextState s) t (hq s _ h (step_eq s)) (by rw [← ticks_succ]; exact hr)

/-- Everything one step can do (R120): nothing, halt, report a fault, or commit a cycle. -/
theorem step_cases {s t : State} (h : step s = .next t) :
    (s.status ≠ .running ∧ t = s) ∨
    (s.status = .running ∧ opOf s.memwb.instr = .halt ∧ t = haltMachine s) ∨
    (s.status = .running ∧ opOf s.memwb.instr ≠ .halt ∧ ∃ r, raised s = some r ∧ t = { s with status := .faulted r }) ∨
    (s.status = .running ∧ opOf s.memwb.instr ≠ .halt ∧ raised s = none ∧ t = committed s) := by
  rw [step_eq] at h
  injection h with h
  subst h
  unfold nextState
  cases hs : s.status with
  | halted => exact .inl ⟨by simp, rfl⟩
  | faulted r => exact .inl ⟨by simp, rfl⟩
  | running =>
    by_cases hh : opOf s.memwb.instr = .halt
    · exact .inr (.inl ⟨rfl, hh, by simp [hh]⟩)
    · cases hr : raised s with
      | some r => exact .inr (.inr (.inl ⟨rfl, hh, r, rfl, by simp [hh]⟩))
      | none => exact .inr (.inr (.inr ⟨rfl, hh, rfl, by simp [hh]⟩))

/-- A committed cycle: the machine runs, no HALT is in MEM/WB, no fault is raised, and the state is `committed`. -/
theorem commits_iff (s t : State) :
    Commits s t ↔ s.status = .running ∧ opOf s.memwb.instr ≠ .halt ∧ raised s = none ∧ t = committed s := by
  constructor
  · rintro ⟨hr, hst, hc⟩
    rcases step_cases hst with ⟨h, -⟩ | ⟨-, -, rfl⟩ | ⟨-, -, r, -, rfl⟩ | h
    · exact absurd hr h
    · simp at hc
    · simp at hc
    · exact h
  · rintro ⟨hr, hh, hn, rfl⟩
    refine ⟨hr, ?_, rfl⟩
    rw [step_eq]
    simp [nextState, hr, hh, hn]

/-- A run of committed cycles goes from each state to `committed` of it. -/
theorem CommitPath.next {n : Nat} {p : Nat → State} (h : CommitPath n p) {k : Nat} (hk : k < n) :
    p (k + 1) = committed (p k) :=
  ((commits_iff _ _).1 (h k hk)).2.2.2

/-- A shorter run of the same cycles. -/
theorem CommitPath.mono {n m : Nat} {p : Nat → State} (h : CommitPath n p) (hm : m ≤ n) : CommitPath m p :=
  fun k hk => h k (by omega)

/-- The run of the same cycles without its first `j`. -/
theorem CommitPath.shift {n : Nat} {p : Nat → State} (h : CommitPath n p) (j : Nat) :
    CommitPath (n - j) (fun k => p (k + j)) := by
  intro k hk
  have := h (k + j) (by omega)
  rwa [Nat.add_right_comm] at this

/-- No fault is raised: what each stage then knows. -/
theorem raised_eq_none_iff (s : State) :
    raised s = none ↔
      ((opOf s.memwb.instr = .add ∨ opOf s.memwb.instr = .nand) → (fC s.memwb.instr).toNat < 8) ∧
      ((opOf s.exmem.instr = .lw ∨ opOf s.exmem.instr = .sw) → inDM s.exmem.aluResult = true) ∧ inIM s.pc = true := by
  simp only [raised, wbFault, memFault, fetchFault, Option.or_eq_none_iff, ite_eq_right_iff, reduceCtorEq, imp_false, not_and,
    Nat.not_le, Bool.not_eq_false]

end Sys2Proof.Machine
end

