-- ==== Sys2Proof/Laws/Interface.lean ====
section
/-!
SUPPORT. What the block does with each input, and what its outputs show. The provers cite these and unfold neither respond nor launch.
-/

namespace Sys2Proof.Machine

/-! ### Outputs -/

@[simp] theorem view_state (b : Block) : (view b).state = b.state := rfl
@[simp] theorem view_nummemory (b : Block) : (view b).nummemory = b.nummemory := rfl
@[simp] theorem statusOut_eq (b : Block) : statusOut b = b.state.status := rfl

/-! ### Inputs -/

/-- A launch has the reset state of its image, and the image's length as `nummemory`. -/
theorem launch_eq_some_iff (image : List Int) (regs : RegFile) (b : Block) :
    launch image regs = some b ↔ resetWith image regs = some b.state ∧ b.nummemory = image.length := by
  unfold launch
  rw [Option.map_eq_some_iff]
  constructor
  · rintro ⟨s, hs, rfl⟩
    exact ⟨hs, rfl⟩
  · rintro ⟨hs, hn⟩
    exact ⟨b.state, hs, by rw [← hn]⟩

/-- Reset launches the image it takes and refuses any other, from every block. -/
theorem respond_reset (b : Block) (image : List Int) (regs : RegFile) :
    (∃ t, resetWith image regs = some t ∧ respond b (.reset image regs) = .next { state := t, nummemory := image.length }) ∨
      (resetWith image regs = none ∧ respond b (.reset image regs) = .refused .imageRefused) := by
  cases h : resetWith image regs with
  | none => exact .inr ⟨rfl, by simp [respond, launch, h]⟩
  | some t => exact .inl ⟨t, rfl, by simp [respond, launch, h]⟩

/-- A tick steps the state and keeps `nummemory`. -/
theorem respond_tick (b : Block) : respond b .tick = .next { state := nextState b.state, nummemory := b.nummemory } := by
  show andThen (step b.state) _ = _
  rw [step_eq]
  rfl

end Sys2Proof.Machine
end

