-- ==== Sys2Proof/Laws/PerInstr.lean ====
section
/-!
SUPPORT. Statements made for every instruction, one lemma per constructor. `EncodeFields`: an instruction's word carries its fields A, B and C where R91 puts
them.
-/

namespace Sys2Proof.Laws.EncodeFields

/-- The fields of the word are the fields of the instruction (R91, R98). -/
def Statement (i : Instr) : Prop :=
  fA (encode i) = i.fieldA ∧ fB (encode i) = i.fieldB ∧ fC (encode i) = i.fieldC

theorem add (a b : RegIdx) (c : Field16) : Statement (.add a b c) := ⟨fA_pack .., fB_pack .., fC_pack ..⟩
theorem nand (a b : RegIdx) (c : Field16) : Statement (.nand a b c) := ⟨fA_pack .., fB_pack .., fC_pack ..⟩
theorem lw (a b : RegIdx) (c : Field16) : Statement (.lw a b c) := ⟨fA_pack .., fB_pack .., fC_pack ..⟩
theorem sw (a b : RegIdx) (c : Field16) : Statement (.sw a b c) := ⟨fA_pack .., fB_pack .., fC_pack ..⟩
theorem beq (a b : RegIdx) (c : Field16) : Statement (.beq a b c) := ⟨fA_pack .., fB_pack .., fC_pack ..⟩
theorem jalr (a b : RegIdx) (c : Field16) : Statement (.jalr a b c) := ⟨fA_pack .., fB_pack .., fC_pack ..⟩
theorem halt (a b : RegIdx) (c : Field16) : Statement (.halt a b c) := ⟨fA_pack .., fB_pack .., fC_pack ..⟩
theorem noop (a b : RegIdx) (c : Field16) : Statement (.noop a b c) := ⟨fA_pack .., fB_pack .., fC_pack ..⟩
theorem unknown (tag : BitVec 7) (op a b : RegIdx) (c : Field16) : Statement (.unknown tag op a b c) :=
  ⟨fA_pack .., fB_pack .., fC_pack ..⟩

end Sys2Proof.Laws.EncodeFields
end

