-- ==== Sys2Proof/Tests/Slice0.lean ====
section
/-!
SUPPORT. The implementer's own tests: the WellFormed smoke test, words written out from the spec's encodings, one or two small results per instruction from
spec/95_test_vectors.md, and for every statement with hypotheses a witness that meets them, at the boundaries of their ranges.
-/

namespace Sys2Proof.Tests

open Sys2Proof.Machine

/-! ## WellFormed (R93, R94) -/

theorem test_wf_refuses_unknown_with_tag_zero : (Instr.unknown 0 7 0 0 0).wf = false := by decide
theorem test_wf_takes_unknown_with_tag_set : (Instr.unknown 1 7 0 0 0).wf = true := by decide
theorem test_wf_takes_add_with_large_c : (Instr.add 0 0 0xFFFF).wf = true := by decide

/-! ## Decoder: words written out bit by bit from R94's encodings (L2.1) -/

theorem test_decode_add : decode 0b00000000000100110000000000000001#32 = .add 2 3 1 := by decide
theorem test_decode_nand : decode 0b00000000010010100000000000000011#32 = .nand 1 2 3 := by decide
theorem test_decode_lw : decode 0b00000000101001111111111111111111#32 = .lw 4 7 0xFFFF := by decide
theorem test_decode_sw : decode 0b00000000110010000000000001100100#32 = .sw 1 0 100 := by decide
theorem test_decode_beq : decode 0b00000001000000001111111111111100#32 = .beq 0 0 0xFFFC := by decide
theorem test_decode_jalr : decode 0b00000001010010100000000000000000#32 = .jalr 1 2 0 := by decide
theorem test_decode_halt : decode 0b00000001101111111111111111111111#32 = .halt 7 7 0xFFFF := by decide
theorem test_decode_noop : decode 0b00000001110000000000000000000000#32 = .noop 0 0 0 := by decide
theorem test_decode_unknown : decode 0b00000011110000000000000000000000#32 = .unknown 1 7 0 0 0 := by decide
theorem test_decode_negative_is_unknown : opOf 0x80000000#32 = .unknown := by decide
theorem test_decode_zero_word : decode 0#32 = .add 0 0 0 := by decide
theorem test_encode_beq : encode (.beq 0 0 0xFFFC) = 0x0100FFFC#32 := by decide
theorem test_table_word : decodeTableWord 32 0x008AFFFF = some (.lw 1 2 0xFFFF) := by decide
theorem test_assemble_lw : assemble (.lw 1 2 (-1)) = some 0x008AFFFF#32 := by decide
theorem test_assemble_refuses_offset : assemble (.beq 0 0 32768) = none := by decide

/-! ## Single stages: results from L2.2, L2.3 and L2.6 -/

/-- The status an outcome leaves, `none` for a stop. -/
def statusOf (o : Host.Outcome State Fault Refusal) : Option Status :=
  match o with
  | .next t => some t.status
  | .fault _ => none
  | .refused _ => none

/-- EX/MEM's result after an outcome, `none` for a stop. -/
def aluResultOf (o : Host.Outcome State Fault Refusal) : Option Word :=
  match o with
  | .next t => some t.exmem.aluResult
  | .fault _ => none
  | .refused _ => none

/-- Registers, retired count, pc and branch count after an outcome. -/
def countsOf (o : Host.Outcome State Fault Refusal) : Option (Word × Nat × Word × Nat) :=
  match o with
  | .next t => some (regRead t.reg 1, t.retired, t.pc, t.branches)
  | .fault _ => none
  | .refused _ => none

/-- A state with an instruction in ID/EX, asked for its execute part. -/
def atEx (a b off : Word) : State :=
  { State.reset with idex := { instr := 0, pc1 := 4, regA := a, regB := b, offset := off }, stage := .execute }

/-- A state with an instruction in EX/MEM, asked for its memory part. -/
def atMem (w result data : Word) : State :=
  { State.reset with
    exmem := { instr := w, branchTarget := 9, aluResult := result, readReg := data }, datamem := [(99, 77)], stage := .memory }

/-- A state with an instruction in MEM/WB, asked for its writeback part. -/
def atWb (w data : Word) : State :=
  { State.reset with memwb := { instr := w, writeData := data }, stage := .writeback }

theorem test_add_wraps : aluResultOf (exec (.add 1 2 3) (atEx 0x7FFFFFFF 1 0)) = some 0x80000000 := by decide
theorem test_add_writes_field_c : countsOf (exec (.add 2 3 1) (atWb 0x00130001 12)) = some (12, 1, 0, 0) := by decide
theorem test_nand : aluResultOf (exec (.nand 1 2 3) (atEx 0x0F0F0F0F 0x00FF00FF 0)) = some 0xFFF0FFF0 := by decide
theorem test_nand_c_8_faults :
    statusOf (exec (.nand 1 2 8) (atWb 0x004A0008 0)) =
      some (.faulted { cause := .regIndexOob, stage := .writeback, value := 8, instr := some 0x004A0008 }) := by decide
theorem test_lw_address : aluResultOf (exec (.lw 1 2 0xFFFF) (atEx 5 100 0xFFFFFFFF)) = some 99 := by decide
theorem test_lw_negative_address_faults :
    statusOf (exec (.lw 1 2 0xFFFF) (atMem 0x008AFFFF 0xFFFFFFFF 0)) =
      some (.faulted { cause := .dataOob, stage := .memory, value := 0xFFFFFFFF, instr := some 0x008AFFFF }) := by decide
theorem test_sw_top_word :
    (match exec (.sw 1 2 0x7FFF) (atMem 0x00CA7FFF 65535 9) with
      | .next t => t.datamem
      | .fault _ => []
      | .refused _ => []) = [(99, 77), (65535, 9)] := by decide
theorem test_sw_of_zero_removes_the_cell :
    (match exec (.sw 1 2 99) (atMem 0x00CA0063 99 0) with
      | .next t => t.datamem
      | .fault _ => [(0, 0)]
      | .refused _ => [(0, 0)]) = [] := by decide
theorem test_beq_equal : aluResultOf (exec (.beq 1 2 5) (atEx 0xFFFFFFFF 0xFFFFFFFF 0)) = some 1 := by decide
theorem test_beq_taken : countsOf (exec (.beq 1 2 5) (atMem 0x010A0005 1 0)) = some (0, 0, 9, 1) := by decide
theorem test_jalr_has_no_effect : countsOf (exec (.jalr 1 2 0) (atWb 0x014A0000 5)) = some (0, 0, 0, 0) := by decide
theorem test_halt_stops : statusOf (exec (.halt 0 0 0) (atWb 0x01800000 0)) = some .halted := by decide
theorem test_noop_does_not_retire : countsOf (exec (.noop 0 0 0) (atWb 0x01C00000 0)) = some (0, 0, 0, 0) := by decide
theorem test_unknown_carries_zero : aluResultOf (exec (.unknown 127 7 7 7 0xFFFF) (atEx 3 4 5)) = some 0 := by decide

/-- The first step after reset fetches the placed word. -/
theorem test_first_step_fetches :
    (match step (State.reset.withFetchWord 32 0x00130001) with
      | .next t => (t.ifid.instr, t.pc, t.cycles, t.fetched)
      | .fault _ => (0, 0, 0, 0)
      | .refused _ => (0, 0, 0, 0)) = (0x00130001#32, 1, 1, 1) := by decide

/-- The reset image of program P1 (L3). -/
theorem test_reset_image :
    (resetWith [1245185, 25165824] (Vector.replicate 8 0)).map (fun s => (s.instrmem, s.datamem)) =
      some ([(0, 0x00130001), (1, 0x01800000)], [(0, 0x00130001), (1, 0x01800000)]) := by decide

/-- The view of program P1's block: `nummemory` is 2, the image's length, whatever block the reset replaces. -/
theorem test_view_nummemory :
    (match respondAll [.reset [1245185, 25165824] (Vector.replicate 8 0), .tick] { state := State.reset, nummemory := 9 } with
      | .next b => some ((view b).nummemory, (view b).state.cycles, statusOut b)
      | .fault _ => none
      | .refused _ => none) = some (2, 1, .running) := by decide

/-! ## Witnesses: for each statement with hypotheses, a state and operands that meet them -/

theorem witness_DecodeEncodeAgree : (Instr.unknown 127 7 7 7 0xFFFF).wf = true ∧ (Instr.add 7 7 0xFFFF).wf = true := by decide

theorem witness_EncodedFieldsComeBack : ((-32768 : Int) ≤ -32768 ∧ (-32768 : Int) < 0) ∧ (-32768 : Int) ≤ -1 ∧ (-1 : Int) < 0 := by
  decide

theorem witness_AssembledLineDecodes :
    (assemble (.add 7 7 7)).isSome = true ∧ (assemble (.lw 7 7 (-32768))).isSome = true ∧
      (assemble (.beq 7 7 32767)).isSome = true ∧ (assemble (.jalr 7 7)).isSome = true ∧ assemble (.sw 8 0 0) = none ∧
      assemble (.nand 0 0 8) = none ∧ assemble (.sw 0 0 (-32769)) = none ∧
      (assemble (.fill (-2147483648))).isSome = true ∧ assemble (.fill 2147483648) = none := by decide

/-- The fetch statement's two clauses, at 0, 65535, 65536 and -1. -/
theorem witness_FetchIsTheSameForEveryInstruction :
    State.reset.stage = .fetch ∧ (0 ≤ (0 : Word).toInt ∧ (0 : Word).toInt ≤ 65535) ∧
      (0 ≤ (65535 : Word).toInt ∧ (65535 : Word).toInt ≤ 65535) ∧ 65535 < (65536 : Word).toInt ∧ (0xFFFFFFFF : Word).toInt < 0 := by
  decide

theorem witness_DecodeIsTheSameForEveryInstruction : (State.reset.atStage .decode).stage = .decode := rfl

/-- Execute, memory and writeback of ADD and NAND, C at both ends of its range. -/
theorem witness_AddCompletes :
    (atEx 1 2 3).stage = .execute ∧ (atMem 0 1 2).stage = .memory ∧ (atWb 0 1).stage = .writeback ∧
      (0 : Field16).toNat < 8 ∧ (7 : Field16).toNat < 8 := by decide

theorem witness_NandCompletes :
    (atEx 1 2 3).stage = .execute ∧ (atMem 0 1 2).stage = .memory ∧ (atWb 0 1).stage = .writeback ∧ (7 : Field16).toNat < 8 := by
  decide

theorem witness_LoadCompletes :
    (atEx 1 2 3).stage = .execute ∧
      ((atMem 0 0 2).stage = .memory ∧ 0 ≤ (atMem 0 0 2).exmem.aluResult.toInt ∧ (atMem 0 0 2).exmem.aluResult.toInt ≤ 65535) ∧
      ((atMem 0 65535 2).exmem.aluResult.toInt ≤ 65535) ∧ (atWb 0 1).stage = .writeback := by decide

theorem witness_StoreCompletes :
    (atEx 1 2 3).stage = .execute ∧
      ((atMem 0 65535 2).stage = .memory ∧ 0 ≤ (atMem 0 65535 2).exmem.aluResult.toInt ∧
        (atMem 0 65535 2).exmem.aluResult.toInt ≤ 65535 ∧ (atMem 0 65535 2).datamem.wf = true) ∧
      (atWb 0 1).stage = .writeback := by decide

theorem witness_BranchCompletes :
    (atEx 1 2 3).stage = .execute ∧ ((atMem 0 1 2).stage = .memory ∧ (atMem 0 1 2).exmem.aluResult ≠ 0) ∧
      ((atMem 0 0 2).stage = .memory ∧ (atMem 0 0 2).exmem.aluResult = 0) ∧ (atWb 0 1).stage = .writeback := by decide

theorem witness_WordsWithoutEffectComplete :
    (Instr.jalr 0 0 0).op = .jalr ∧ (Instr.noop 0 0 0).op = .noop ∧ (Instr.unknown 1 0 0 0 0).op = .unknown ∧
      (atEx 1 2 3).stage = .execute ∧ (atMem 0 1 2).stage = .memory ∧ (atWb 0 1).stage = .writeback := by decide

theorem witness_HaltCompletes :
    (atEx 1 2 3).stage = .execute ∧ (atMem 0 1 2).stage = .memory ∧ (atWb 0 1).stage = .writeback := by decide

theorem witness_InstructionsFaultOutOfRange :
    ((atMem 0 65536 2).stage = .memory ∧ 65535 < (atMem 0 65536 2).exmem.aluResult.toInt) ∧
      (atMem 0 0xFFFFFFFF 2).exmem.aluResult.toInt < 0 ∧ (atWb 0 1).stage = .writeback ∧ 7 < (8 : Field16).toNat := by decide

theorem witness_StepRunsTheFiveInstructions :
    State.reset.status = .running ∧ opOf State.reset.memwb.instr ≠ .halt ∧ inIM State.reset.pc = true := by decide

theorem witness_TickHaltsOrRunsOneCycle :
    ({ State.reset with status := .halted } : State).status ≠ .running ∧
      ((atWb 0x01800000 0).status = .running ∧ opOf (atWb 0x01800000 0).memwb.instr = .halt) ∧
      State.reset.status = .running ∧ opOf State.reset.memwb.instr ≠ .halt := by decide

/-- A state with ADD in MEM/WB, LW in EX/MEM and a pc of one's choice. -/
def threeFaults (c : Word) (address pc : Word) : State :=
  { State.reset with
    memwb := { instr := c, writeData := 0 }, pc := pc
    exmem := { instr := 0x00800000, branchTarget := 0, aluResult := address, readReg := 0 } }

/-- The four clauses: a writeback fault (C = 8), then a memory fault (65536), then a fetch fault (65536), then none (C = 7, 65535, 65535). -/
theorem witness_FaultRaisedExactlyWhen :
    ((threeFaults 8 65536 65536).status = .running ∧ opOf (threeFaults 8 65536 65536).memwb.instr ≠ .halt ∧
        opOf (threeFaults 8 65536 65536).memwb.instr = .add ∧ 7 < (fC (threeFaults 8 65536 65536).memwb.instr).toNat) ∧
      (¬7 < (fC (threeFaults 7 65536 65536).memwb.instr).toNat ∧ opOf (threeFaults 7 65536 65536).exmem.instr = .lw ∧
        65535 < (threeFaults 7 65536 65536).exmem.aluResult.toInt) ∧
      ((threeFaults 7 65535 65536).exmem.aluResult.toInt ≤ 65535 ∧ 65535 < (threeFaults 7 65535 65536).pc.toInt) ∧
      (threeFaults 7 65535 65535).pc.toInt ≤ 65535 := by decide

/-- Both clauses, with the pc out of range. -/
theorem witness_HaltCheckPrecedesFaults :
    step (threeFaults 0x01800000 0 65536) = .next (nextState (threeFaults 0x01800000 0 65536)) ∧
      (threeFaults 0x01800000 0 65536).status = .running ∧ opOf (threeFaults 0x01800000 0 65536).memwb.instr = .halt ∧
      step (threeFaults 0 0 65536) = .next (nextState (threeFaults 0 0 65536)) ∧
      opOf (threeFaults 0 0 65536).memwb.instr ≠ .halt ∧ inIM (threeFaults 0 0 65536).pc = false :=
  ⟨step_eq _, by decide, by decide, step_eq _, by decide, by decide⟩

theorem witness_OnlyResetLeavesAStop :
    ({ State.reset with status := .halted } : State).status ≠ .running ∧ imageOk [-2147483648, 2147483647] = true := by decide

/-! ### Committed cycles -/

/-- The run of ticks from a state. -/
def runFrom (s : State) : Nat → State
  | 0 => s
  | k + 1 => nextState (runFrom s k)

/-- A tick that leaves a running machine with one cycle more is a committed cycle. -/
theorem commits_of_cycles {s : State} (h1 : s.status = .running) (h2 : (nextState s).cycles = s.cycles + 1) :
    Commits s (nextState s) :=
  ⟨h1, step_eq s, h2⟩

/-- A run whose cycle count rises by one each tick is a run of committed cycles. -/
theorem commitPath_of_cycles {n : Nat} {s : State}
    (h : ∀ k, k < n → (runFrom s k).status = .running ∧ (nextState (runFrom s k)).cycles = (runFrom s k).cycles + 1) :
    CommitPath n (runFrom s) :=
  fun k hk => commits_of_cycles (h k hk).1 (h k hk).2

/-- The statements whose one hypothesis is a committed cycle: FetchOfACommittedCycle, ExecuteOfACommittedCycle, MemoryOfACommittedCycle and
WritebackOfACommittedCycle. -/
theorem witness_Commits_reset : Commits State.reset (nextState State.reset) := commits_of_cycles rfl (by decide)

/-- ADD in MEM/WB writes register 1 while ADD in IF/ID reads it. -/
def readAndWrite : State :=
  { State.reset with memwb := { instr := 0x00130001, writeData := 12 }, ifid := { instr := 0x00090002, pc1 := 1 } }

theorem witness_DecodeReadsOldRegisters :
    Commits readAndWrite (nextState readAndWrite) ∧ destination readAndWrite.memwb.instr = some 1 ∧
      fA readAndWrite.ifid.instr = 1 :=
  ⟨commits_of_cycles rfl (by decide), by decide, by decide⟩

theorem witness_OnlyTheDestinationRegisterChanges :
    step readAndWrite = .next (nextState readAndWrite) ∧
      regRead (nextState readAndWrite).reg 1 ≠ regRead readAndWrite.reg 1 :=
  ⟨step_eq _, by decide⟩

/-- SW in EX/MEM at 100, LW of 100 behind it. -/
def storeThenLoad : State :=
  { State.reset with
    exmem := { instr := 0x00C80064, branchTarget := 0, aluResult := 100, readReg := 42 }
    idex := { instr := 0x00900064, pc1 := 2, regA := 0, regB := 0, offset := 100 } }

theorem witness_OnlyAStoreChangesDataMemory :
    storeThenLoad.datamem.wf = true ∧ step storeThenLoad = .next (nextState storeThenLoad) ∧
      (nextState storeThenLoad).datamem.read 100 ≠ storeThenLoad.datamem.read 100 :=
  ⟨by decide, step_eq _, by decide⟩

/-- CountersCountAsListed, CountersAndWbEndAreNeverRead and StepKeepsTheInvariant: a step that answers a next state. -/
theorem witness_step_next : step State.reset = .next (nextState State.reset) := step_eq _

theorem witness_CountersCountAsListed_uncommitted :
    step (atWb 0x01800000 0) = .next (nextState (atWb 0x01800000 0)) ∧
      ¬Commits (atWb 0x01800000 0) (nextState (atWb 0x01800000 0)) :=
  ⟨step_eq _, fun h => absurd h.2.2 (by decide)⟩

theorem witness_InstructionMemoryNeverChanges : ticks 1 State.reset = .next (nextState State.reset) := by
  rw [ticks_succ]
  rfl

/-- Both ways: a taken BEQ to -4, and the fetch of 65535. -/
theorem witness_PcLeavesRangeInTwoWays :
    let s := { State.reset with exmem := { instr := 0x0100FFFB, branchTarget := 0xFFFFFFFC, aluResult := 1, readReg := 0 } }
    let u := { State.reset with pc := 65535 }
    (step s = .next (nextState s) ∧ inIM s.pc = true ∧ inIM (nextState s).pc = false) ∧
      step u = .next (nextState u) ∧ inIM u.pc = true ∧ inIM (nextState u).pc = false :=
  ⟨⟨step_eq _, by decide, by decide⟩, step_eq _, by decide, by decide⟩

theorem witness_WordPassesEveryStage : CommitPath 5 (runFrom State.reset) := commitPath_of_cycles (by decide)

/-- The reset state with a word in IF/ID and small register values. -/
def withIfid (w : Word) : State :=
  { State.reset with ifid := { instr := w, pc1 := 1 }, reg := #v[0, 1, 5, 7, 0, 0, 0, 65535] }

theorem witness_AluInstructionNetEffect :
    (CommitPath 4 (runFrom (withIfid (encode (.add 2 3 7)))) ∧ (withIfid (encode (.add 2 3 7))).ifid.instr = encode (.add 2 3 7)) ∧
      CommitPath 4 (runFrom (withIfid (encode (.nand 2 3 0)))) ∧
      (withIfid (encode (.nand 2 3 0))).ifid.instr = encode (.nand 2 3 0) :=
  ⟨⟨commitPath_of_cycles (by decide), rfl⟩, commitPath_of_cycles (by decide), rfl⟩

/-- Base 65535 and offset 0: the top word. -/
theorem witness_LoadNetEffect :
    CommitPath 4 (runFrom (withIfid (encode (.lw 1 7 0)))) ∧ (withIfid (encode (.lw 1 7 0))).ifid.instr = encode (.lw 1 7 0) :=
  ⟨commitPath_of_cycles (by decide), rfl⟩

theorem witness_StoreNetEffect :
    CommitPath 4 (runFrom (withIfid (encode (.sw 2 7 0)))) ∧ (withIfid (encode (.sw 2 7 0))).ifid.instr = encode (.sw 2 7 0) ∧
      (runFrom (withIfid (encode (.sw 2 7 0))) 2).datamem.wf = true :=
  ⟨commitPath_of_cycles (by decide), rfl, by decide⟩

/-- Taken and not taken. -/
theorem witness_BranchShadowIsThreeWords :
    (CommitPath 4 (runFrom (withIfid (encode (.beq 2 2 5)))) ∧ (withIfid (encode (.beq 2 2 5))).ifid.instr = encode (.beq 2 2 5)) ∧
      CommitPath 4 (runFrom (withIfid (encode (.beq 1 2 5)))) ∧
      (withIfid (encode (.beq 1 2 5))).ifid.instr = encode (.beq 1 2 5) :=
  ⟨⟨commitPath_of_cycles (by decide), rfl⟩, commitPath_of_cycles (by decide), rfl⟩

/-- The BEQs of program P7 at 0 and 1. -/
def twoBranches : State :=
  { State.reset with
    exmem := { instr := 0x01000009, branchTarget := 10, aluResult := 1, readReg := 0 }
    idex := { instr := 0x0100000A, pc1 := 2, regA := 0, regB := 0, offset := 10 } }

theorem witness_BranchInTheShadowWins :
    CommitPath 3 (runFrom twoBranches) ∧ opOf twoBranches.exmem.instr = .beq ∧ twoBranches.exmem.aluResult ≠ 0 ∧
      opOf twoBranches.idex.instr = .beq ∧ twoBranches.idex.regA = twoBranches.idex.regB :=
  ⟨commitPath_of_cycles (by decide), by decide, by decide, by decide, by decide⟩

theorem witness_HaltStopsAtMemWb :
    CommitPath 3 (runFrom (withIfid 0x01BFFFFF)) ∧ opOf (withIfid 0x01BFFFFF).ifid.instr = .halt :=
  ⟨commitPath_of_cycles (by decide), by decide⟩

/-- Both clauses: no writer, and the ADD in MEM/WB (j = 0, n = 1) as the last writer. -/
theorem witness_RegisterReadSeesLastWriteback :
    CommitPath 2 (runFrom readAndWrite) ∧ destination (runFrom readAndWrite 0).memwb.instr ≠ some 2 ∧
      destination (runFrom readAndWrite 0).memwb.instr = some 1 ∧ fA (runFrom readAndWrite 1).ifid.instr = 0 :=
  ⟨commitPath_of_cycles (by decide), by decide, by decide, by decide⟩

/-- `add 2 3 1` in IF/ID, and `add 1 1 4` at every address fetched after it. -/
def readersBehind : State :=
  { withIfid (encode (.add 2 3 1)) with
    instrmem := [(0, 0x00090004), (1, 0x00090004), (2, 0x00090004), (3, 0x00090004), (4, 0x00090004)] }

theorem witness_ReadersWithinThreeSlotsSeeTheOldValue :
    CommitPath 5 (runFrom readersBehind) ∧ readersBehind.ifid.instr = encode (.add 2 3 1) ∧ (1 : Field16).toNat = (1 : RegIdx).toNat ∧
      destination readersBehind.idex.instr ≠ some 1 ∧ destination readersBehind.exmem.instr ≠ some 1 ∧
      destination readersBehind.memwb.instr ≠ some 1 ∧
      (fA (runFrom readersBehind 1).ifid.instr = 1 ∧ fB (runFrom readersBehind 3).ifid.instr = 1 ∧
        fA (runFrom readersBehind 4).ifid.instr = 1) :=
  ⟨commitPath_of_cycles (by decide), by decide, by decide, by decide, by decide, by decide, by decide, by decide, by decide⟩

/-- Both clauses at n = 1: the store at 100 in the slot before, and an address no store names. -/
theorem witness_LoadSeesEveryEarlierStore :
    (CommitPath 2 (runFrom storeThenLoad) ∧ storeThenLoad.datamem.wf = true ∧
        opOf (runFrom storeThenLoad 1).exmem.instr = .lw ∧ (runFrom storeThenLoad 1).exmem.aluResult = 100 ∧
        storesTo (runFrom storeThenLoad 0) 100) ∧
      ¬storesTo (runFrom storeThenLoad 0) 99 :=
  ⟨⟨commitPath_of_cycles (by decide), by decide, by decide, by decide, by decide, by decide⟩, fun h => absurd h.2 (by decide)⟩

/-- Program P1's image: HALT in slot 1. -/
def p1 : State :=
  { State.reset with instrmem := [(0, 0x00130001), (1, 0x01800000)], datamem := [(0, 0x00130001), (1, 0x01800000)] }

theorem witness_HaltedRunTotals :
    resetWith [1245185, 25165824] (Vector.replicate 8 0) = some (runFrom p1 0) ∧ CommitPath (1 + 4) (runFrom p1) ∧
      opOf (fetchedWord (runFrom p1 0)) ≠ .halt ∧ opOf (fetchedWord (runFrom p1 1)) = .halt :=
  ⟨by decide, commitPath_of_cycles (by decide), by decide, by decide⟩

/-- Program P1's image one cycle on: ADD in IF/ID, the pc at the HALT. -/
def p1AfterOne : State :=
  { p1 with ifid := { instr := 0x00130001, pc1 := 1 }, pc := 1, cycles := 1, fetched := 1 }

/-- StepKeepsTheInvariant, and ExecuteOfACommittedCycle's clause under the invariant. -/
theorem witness_StepKeepsTheInvariant :
    Inv p1AfterOne ∧ step p1 = .next p1AfterOne ∧ step p1AfterOne = .next (nextState p1AfterOne) ∧
      Commits p1AfterOne (nextState p1AfterOne) := by
  refine ⟨?_, (step_eq p1).trans (congrArg _ (by decide)), step_eq _, commits_of_cycles rfl (by decide)⟩
  constructor <;> first | decide | exact fun r h => nomatch h

/-- EveryRunMeetsTheInvariant: an image with a reset state, and a tick from it. -/
theorem witness_EveryRunMeetsTheInvariant :
    resetWith [1245185, 25165824] (Vector.replicate 8 0) = some p1 ∧ ticks 1 p1 = .next (nextState p1) :=
  ⟨by decide, by rw [ticks_succ]; rfl⟩

theorem witness_ResetPlacesTheImage : imageOk [-2147483648, 0, 2147483647] = true := by decide

/-- An empty image, and one with a value at each end of the range. -/
theorem witness_ViewShowsTheImageLength : imageOk [] = true ∧ imageOk [-2147483648, 2147483647] = true := by decide

theorem witness_ResetRefusesBadImages : imageOk [2147483648] = false ∧ imageOk [-2147483649] = false := by decide

theorem witness_PlacedWordIsFetchedNext :
    State.reset.instrmem.wf = true ∧
      Commits (State.reset.withFetchWord 32 (0x00130001 : Word).toNat)
        (nextState (State.reset.withFetchWord 32 (0x00130001 : Word).toNat)) :=
  ⟨by decide, commits_of_cycles rfl (by decide)⟩

end Sys2Proof.Tests
end

section
/-!
PROOFS of the family 10_state: the state, its frames, reset and the invariant.

Facts about the model come first, in the order of the definitions they speak of: the words and the control signals, the state a
committed cycle leaves, the step, reset and the block. The statements follow, each a short use of them.
-/

namespace Sys2Proof.Machine

/-! ### Words and control signals -/

/-- The opcode classes that retire (R133). -/
theorem retires_iff (w : Word) :
    retires w = true ↔ opOf w = .add ∨ opOf w = .nand ∨ opOf w = .lw ∨ opOf w = .sw ∨ opOf w = .beq := by
  unfold retires
  cases opOf w <;> simp

/-- The one register a word writes at writeback, by its opcode class and its field (R24). -/
theorem destination_eq_some_iff (w : Word) (r : RegIdx) :
    destination w = some r ↔
      ((opOf w = .add ∨ opOf w = .nand) ∧ (fC w).toNat = r.toNat) ∨ (opOf w = .lw ∧ fA w = r) := by
  have hr : r.toNat < 8 := r.isLt
  have field_c : (if (fC w).toNat < 8 then some ((fC w).setWidth 3) else none) = some r ↔ (fC w).toNat = r.toNat := by
    rw [Option.ite_none_right_eq_some, Option.some.injEq, BitVec.toNat_eq, BitVec.toNat_setWidth]
    omega
  unfold destination
  cases opOf w
  case add => simpa using field_c
  case nand => simpa using field_c
  all_goals simp

theorem haltInFlight_iff (s : State) :
    haltInFlight s = true ↔
      opOf s.ifid.instr = .halt ∨ opOf s.idex.instr = .halt ∨ opOf s.exmem.instr = .halt ∨ opOf s.memwb.instr = .halt := by
  simp [haltInFlight, isHalt, or_assoc]

theorem aluEqual_eq_zero_or_one (a b : Word) : aluEqual a b = 0 ∨ aluEqual a b = 1 := by
  unfold aluEqual
  split
  · exact .inr rfl
  · exact .inl rfl

/-- A word without effect leaves the execute stage with result 0 (R130). -/
theorem aluByOp_of_not_retires {w : Word} (h : retires w = false) (a b o : Word) : aluByOp (opOf w) a b o = 0 := by
  unfold retires at h
  cases hop : opOf w <;> simp [hop] at h <;> rfl

/-- A word without effect leaves the memory stage with data 0 (R131). -/
theorem writeDataMux_of_not_retires {s : State} (h : retires s.exmem.instr = false) : writeDataMux s = 0 := by
  unfold retires at h
  unfold writeDataMux
  cases hop : opOf s.exmem.instr <;> simp [hop] at h <;> rfl

/-! ### The state a committed cycle leaves -/

/-- Writeback changes the destination register alone (R24, R133). -/
theorem regRead_regAfter (s : State) (r : RegIdx) :
    regRead (regAfter s) r = if destination s.memwb.instr = some r then s.memwb.writeData else regRead s.reg r := by
  unfold regAfter
  cases destination s.memwb.instr with
  | none => simp
  | some d => simp only [regRead_regWrite, Option.some.injEq, eq_comm]

/-- The memory stage changes the word a store addresses alone (R31, R131). -/
theorem read_datamemAfter {s : State} (hwf : s.datamem.wf = true) (hn : raised s = none) (x : Nat) :
    (datamemAfter s).read x =
      if opOf s.exmem.instr = .sw ∧ x = s.exmem.aluResult.toNat then s.exmem.readReg else s.datamem.read x := by
  obtain ⟨-, data_in_range, -⟩ := (raised_eq_none_iff s).1 hn
  unfold datamemAfter
  by_cases hop : opOf s.exmem.instr = .sw
  · have address_lt := (inDM_iff _).1 (data_in_range (.inr hop))
    simp [hop, Memory.read_write hwf address_lt]
  · simp [hop]

/-- The memory stage keeps the canonical form of data memory. -/
theorem datamemAfter_wf {s : State} (h : s.datamem.wf = true) : (datamemAfter s).wf = true := by
  unfold datamemAfter
  split
  · exact Memory.wf_write h _ _
  · exact h

/-! ### The step -/

/-- A step is a committed cycle, or it leaves all of the state but the status and, in the halting tick, `retired`. -/
theorem commits_or_stops {s t : State} (h : step s = .next t) :
    Commits s t ∨
      ¬Commits s t ∧
        ∃ st : Status,
          t = { s with
            status := st
            retired := if s.status = .running ∧ opOf s.memwb.instr = .halt then s.retired + 1 else s.retired } := by
  rcases step_cases h with ⟨hs, rfl⟩ | ⟨hs, hh, rfl⟩ | ⟨hs, hh, r, -, rfl⟩ | hc
  · exact .inr ⟨fun c => hs c.1, t.status, by simp [hs]⟩
  · exact .inr ⟨fun c => ((commits_iff _ _).1 c).2.1 hh, .halted, by simp [haltMachine, hs, hh]⟩
  · refine .inr ⟨fun c => ?_, .faulted r, by simp [hh]⟩
    obtain ⟨-, -, more_cycles⟩ := c
    simp at more_cycles
  · exact .inl ((commits_iff s t).2 hc)

/-! ### Faults -/

theorem wbFault_fits {s : State} {r : FaultRecord} (h : wbFault s = some r) : RecordFits s r := by
  obtain ⟨⟨hop, hc⟩, ⟨⟩⟩ := Option.ite_none_right_eq_some.1 h
  exact ⟨rfl, rfl, rfl, hc, hop⟩

theorem memFault_fits {s : State} {r : FaultRecord} (h : memFault s = some r) : RecordFits s r := by
  obtain ⟨⟨hop, hout⟩, ⟨⟩⟩ := Option.ite_none_right_eq_some.1 h
  exact ⟨rfl, rfl, rfl, hout, hop⟩

theorem fetchFault_fits {s : State} {r : FaultRecord} (h : fetchFault s = some r) : RecordFits s r := by
  obtain ⟨hout, ⟨⟩⟩ := Option.ite_none_right_eq_some.1 h
  exact ⟨rfl, rfl, rfl, hout⟩

/-- The record a cycle reports is true of the state the cycle starts in (R221). -/
theorem raised_fits {s : State} {r : FaultRecord} (h : raised s = some r) : RecordFits s r := by
  unfold raised at h
  rcases Option.or_eq_some_iff.1 h with hw | ⟨-, h⟩
  · exact wbFault_fits hw
  · rcases Option.or_eq_some_iff.1 h with hm | ⟨-, hf⟩
    · exact memFault_fits hm
    · exact fetchFault_fits hf

/-! ### The invariant through a step -/

/-- The halting tick keeps the invariant: `retired` may pass `cycles` by one from here on (R121). -/
theorem Inv.haltMachine {s : State} (hi : Inv s) (hs : s.status = .running) (hh : opOf s.memwb.instr = .halt) :
    Inv (haltMachine s) where
  __ := hi
  retired_le := by
    have := hi.retired_le
    simpa [hs] using this
  halted_fits _ := hh
  faulted_fits r hr := by simp at hr

/-- A cycle that reports a fault keeps the invariant: it changes the status alone (R223). -/
theorem Inv.faulted {s : State} (hi : Inv s) (hs : s.status = .running) (hh : opOf s.memwb.instr ≠ .halt) {r : FaultRecord}
    (hr : raised s = some r) : Inv { s with status := .faulted r } where
  __ := hi
  retired_le := by
    have := hi.retired_le
    simpa [hs] using this
  halted_fits h := by simp at h
  faulted_fits r' hr' := by
    obtain rfl : r = r' := by simpa using hr'
    exact ⟨raised_fits hr, hh⟩

/-- The next pc is a branch target or the word after a word of instruction memory (R25, R129). -/
theorem committed_pc_range {s : State} (hi : Inv s) (hn : raised s = none) :
    -32768 ≤ (committed s).pc.toInt ∧ (committed s).pc.toInt ≤ 98303 := by
  obtain ⟨-, -, pc_in⟩ := (raised_eq_none_iff s).1 hn
  have pc_le := toInt_of_inIM pc_in
  rw [committed_pc]
  split
  · exact hi.branch_target
  · rw [incPc_toInt pc_in]
    omega

/-- The branch target is a fetch address plus one plus a 16-bit offset (R129). -/
theorem committed_branchTarget_range {s : State} (hi : Inv s) :
    -32768 ≤ (committed s).exmem.branchTarget.toInt ∧ (committed s).exmem.branchTarget.toInt ≤ 98303 := by
  have pc1_range := hi.idex_pc1
  have offset_range : -32768 ≤ s.idex.offset.toInt ∧ s.idex.offset.toInt ≤ 32767 := hi.idex_offset ▸ sext16_range _
  rw [committed_exmem, branchTargetOf_toInt pc1_range offset_range]
  omega

/-- A committed cycle keeps the invariant. -/
theorem Inv.committed {s : State} (hi : Inv s) (hs : s.status = .running) (hn : raised s = none) : Inv (committed s) where
  instrmem_wf := hi.instrmem_wf
  datamem_wf := datamemAfter_wf hi.datamem_wf
  ifid_pc1 := by
    obtain ⟨-, -, pc_in⟩ := (raised_eq_none_iff s).1 hn
    have pc_le := toInt_of_inIM pc_in
    rw [committed_ifid, incPc_toInt pc_in]
    omega
  idex_pc1 := hi.ifid_pc1
  idex_offset := rfl
  branch_target := committed_branchTarget_range hi
  pc_range := committed_pc_range hi hn
  beq_result h := by
    rw [committed_exmem] at h ⊢
    rw [h]
    exact aluEqual_eq_zero_or_one _ _
  exmem_zero h := aluByOp_of_not_retires h _ _ _
  memwb_zero h := writeDataMux_of_not_retires h
  mispreds_zero := hi.mispreds_zero
  fetched_le := by
    have := hi.fetched_le
    rw [committed_fetched, committed_cycles]
    split <;> omega
  branches_le := by
    have := hi.branches_le
    rw [committed_branches, committed_cycles]
    split <;> omega
  retired_le := by
    have : s.retired ≤ s.cycles := by simpa [hs] using hi.retired_le
    rw [committed_retired, committed_cycles]
    split <;> omega
  halted_fits h := by simp [hs] at h
  faulted_fits r hr := by simp [hs] at hr

/-! ### Reset -/

/-- What the loader takes (R251). -/
theorem imageOk_iff (image : List Int) :
    imageOk image = true ↔ image.length ≤ 65536 ∧ ∀ n ∈ image, -2147483648 ≤ n ∧ n ≤ 2147483647 := by
  simp [imageOk, imageValueOk]

/-- The reset state of an image and register contents (R38). -/
def loadedState (image : List Int) (regs : RegFile) : State :=
  { State.reset with
    instrmem := Memory.ofWords (image.map wrap32), datamem := Memory.ofWords (image.map wrap32), reg := regs }

theorem resetWith_of_imageOk {image : List Int} (h : imageOk image = true) (regs : RegFile) :
    resetWith image regs = some (loadedState image regs) :=
  if_pos h

theorem loadedState_nil : loadedState [] (Vector.replicate 8 0) = State.reset := rfl

/-- An address reads as the image's value there, and as 0 past the image (R66, R251). -/
theorem toInt_read_ofWords_image {image : List Int} (h : imageOk image = true) (i : Nat) :
    ((Memory.ofWords (image.map wrap32)).read i).toInt = image.getD i 0 := by
  obtain ⟨-, in_range⟩ := (imageOk_iff image).1 h
  rw [Memory.read_ofWords, List.getD_eq_getElem?_getD, List.getElem?_map, List.getD_eq_getElem?_getD]
  cases hv : image[i]? with
  | none => rfl
  | some n =>
    obtain ⟨lo, hi⟩ := in_range n (List.mem_of_getElem? hv)
    exact toInt_wrap32 lo hi

theorem inv_reset : Inv State.reset where
  instrmem_wf := rfl
  datamem_wf := rfl
  ifid_pc1 := by decide
  idex_pc1 := by decide
  idex_offset := by decide
  branch_target := by decide
  pc_range := by decide
  beq_result _ := .inl rfl
  exmem_zero _ := rfl
  memwb_zero _ := rfl
  mispreds_zero := rfl
  fetched_le := Nat.le_refl 0
  branches_le := Nat.le_refl 0
  retired_le := Nat.zero_le _
  halted_fits h := nomatch h
  faulted_fits _ h := nomatch h

/-- The reset state of every image the loader takes meets the invariant: it differs from `State.reset` in the two memories and the registers alone. -/
theorem inv_loadedState {image : List Int} (h : imageOk image = true) (regs : RegFile) : Inv (loadedState image regs) := by
  obtain ⟨length_le, -⟩ := (imageOk_iff image).1 h
  have image_wf : (Memory.ofWords (image.map wrap32)).wf = true := Memory.wf_ofWords _ (by rwa [List.length_map])
  exact { inv_reset with instrmem_wf := image_wf, datamem_wf := image_wf }

/-! ### The block over many ticks -/

/-- Every run of ticks answers a next state (R138). -/
theorem ticks_eq_iterate (n : Nat) (s : State) : ticks n s = .next (nextState^[n] s) := by
  induction n generalizing s with
  | zero => rfl
  | succ n ih => rw [ticks_succ, ih, Function.iterate_succ_apply]

/-- Ticks step the state and keep `nummemory` (R41). -/
theorem respondAll_ticks (n : Nat) (b : Block) :
    respondAll (List.replicate n .tick) b = .next { state := nextState^[n] b.state, nummemory := b.nummemory } := by
  induction n generalizing b with
  | zero => rfl
  | succ n ih =>
    rw [List.replicate_succ, respondAll, respond_tick, andThen, ih, Function.iterate_succ_apply]

/-- Reset with an image the loader takes, then ticks (R39, R250). -/
theorem respondAll_reset_ticks {image : List Int} (h : imageOk image = true) (regs : RegFile) (n : Nat) (b : Block) :
    respondAll (.reset image regs :: List.replicate n .tick) b =
      .next { state := nextState^[n] (loadedState image regs), nummemory := image.length } := by
  have takes := resetWith_of_imageOk h regs
  rcases respond_reset b image regs with ⟨t, ht, launched⟩ | ⟨refused, -⟩
  · obtain rfl : loadedState image regs = t := Option.some.inj (takes.symm.trans ht)
    rw [respondAll, launched, andThen, respondAll_ticks]
  · rw [takes] at refused
    contradiction

/-! ### The statements -/

/-- Settles O48, by the four things a step can do. -/
theorem stepKeepsTheInvariant : Obligations.StepKeepsTheInvariant := by
  intro s t hi h
  rcases step_cases h with ⟨-, rfl⟩ | ⟨hs, hh, rfl⟩ | ⟨hs, hh, r, hr, rfl⟩ | ⟨hs, -, hn, rfl⟩
  · exact hi
  · exact hi.haltMachine hs hh
  · exact hi.faulted hs hh hr
  · exact hi.committed hs hn

/-- Settles O31: a committed cycle's counters are those of `committed`; any other step leaves all but `retired`. -/
theorem countersCountAsListed : Obligations.CountersCountAsListed := by
  intro s t h
  rcases commits_or_stops h with hc | ⟨hc, st, rfl⟩
  · obtain ⟨-, -, -, rfl⟩ := (commits_iff s t).1 hc
    refine ⟨fun _ => ⟨rfl, ?_, ?_, ?_⟩, fun hnot => absurd hc hnot, rfl⟩
    · simp only [committed_fetched, haltInFlight_iff]
    · simp only [committed_retired, retires_iff]
    · simp only [committed_branches, brTaken_iff]
  · exact ⟨fun hcommits => absurd hcommits hc, fun _ => ⟨rfl, rfl, rfl, rfl⟩, rfl⟩

/-- Settles O33: only a committed cycle writes a register, and writeback writes the destination alone. -/
theorem onlyTheDestinationRegisterChanges : Obligations.OnlyTheDestinationRegisterChanges := by
  intro s t r h changed
  rcases commits_or_stops h with hc | ⟨-, st, rfl⟩
  · obtain ⟨-, -, -, rfl⟩ := (commits_iff s t).1 hc
    rw [committed_reg, regRead_regAfter] at changed ⊢
    obtain ⟨hd, -⟩ := ite_ne_right_iff.1 changed
    exact ⟨if_pos hd, (destination_eq_some_iff _ _).1 hd⟩
  · exact absurd rfl changed

/-- Settles O34: only a committed cycle writes data memory, and only the address of a store. -/
theorem onlyAStoreChangesDataMemory : Obligations.OnlyAStoreChangesDataMemory := by
  intro s t x hwf h changed
  rcases commits_or_stops h with hc | ⟨-, st, rfl⟩
  · obtain ⟨-, -, hn, rfl⟩ := (commits_iff s t).1 hc
    rw [committed_datamem, read_datamemAfter hwf hn] at changed ⊢
    obtain ⟨⟨is_store, at_address⟩, -⟩ := ite_ne_right_iff.1 changed
    exact ⟨is_store, at_address, if_pos ⟨is_store, at_address⟩⟩
  · exact absurd rfl changed

/-- Settles O51: what the image does not fix is as in `State.reset`. -/
theorem resetPlacesTheImage : Obligations.ResetPlacesTheImage := by
  intro image regs h
  exact ⟨loadedState image regs, resetWith_of_imageOk h regs,
    fun i => ⟨toInt_read_ofWords_image h i, toInt_read_ofWords_image h i⟩,
    rfl, rfl, ⟨rfl, rfl, rfl, rfl, rfl⟩, ⟨rfl, rfl, rfl, rfl, rfl⟩, rfl⟩

/-- Settles O55: ticks iterate `nextState` on the state and pass `nummemory` on. -/
theorem viewShowsTheImageLength : Obligations.ViewShowsTheImageLength :=
  ⟨fun n s => ⟨nextState^[n] s, ticks_eq_iterate n s, fun m => respondAll_ticks n { state := s, nummemory := m }⟩,
    fun b image regs n h =>
      ⟨loadedState image regs, nextState^[n] (loadedState image regs),
        { state := nextState^[n] (loadedState image regs), nummemory := image.length }, resetWith_of_imageOk h regs,
        ticks_eq_iterate _ _, respondAll_reset_ticks h regs n b, rfl⟩⟩

/-- Settles O49. -/
theorem resetMeetsTheInvariant : Obligations.ResetMeetsTheInvariant :=
  inv_reset

/-- Settles O53: the empty image is one the loader takes. -/
theorem resetIsTheEmptyImage : Obligations.ResetIsTheEmptyImage :=
  ⟨(resetWith_of_imageOk rfl _).trans (congrArg some loadedState_nil), by decide⟩

end Sys2Proof.Machine
end

section
/-!
PROOFS of the family 20_memory: instruction memory is never written, and a load sees every earlier store.

Each memory fact is said first for one step or one committed cycle, then carried along the run by induction.
-/

namespace Sys2Proof.Machine

/-! ### One step -/

/-- No step writes instruction memory (R30). -/
theorem step_instrmem {s t : State} (h : step s = .next t) : t.instrmem = s.instrmem := by
  rcases commits_or_stops h with hc | ⟨-, st, rfl⟩
  · obtain ⟨-, -, -, rfl⟩ := (commits_iff s t).1 hc
    rfl
  · rfl

/-! ### One committed cycle -/

/-- A committed cycle keeps the canonical form of data memory. -/
theorem Commits.datamem_wf {s t : State} (h : Commits s t) (hwf : s.datamem.wf = true) : t.datamem.wf = true := by
  obtain ⟨-, -, -, rfl⟩ := (commits_iff s t).1 h
  exact datamemAfter_wf hwf

/-- The cycle of a store leaves the store's data at its address (R131). -/
theorem Commits.read_of_storesTo {s t : State} {a : Word} (h : Commits s t) (hwf : s.datamem.wf = true)
    (hst : storesTo s a) : t.datamem.read a.toNat = s.exmem.readReg := by
  obtain ⟨-, -, hn, rfl⟩ := (commits_iff s t).1 h
  obtain ⟨is_store, rfl⟩ := hst
  rw [committed_datamem, read_datamemAfter hwf hn, if_pos ⟨is_store, rfl⟩]

/-- The cycle of any other word, or of a store to another address, leaves the word at an address as it was (R31). -/
theorem Commits.read_of_not_storesTo {s t : State} {a : Word} (h : Commits s t) (hwf : s.datamem.wf = true)
    (hst : ¬storesTo s a) : t.datamem.read a.toNat = s.datamem.read a.toNat := by
  obtain ⟨-, -, hn, rfl⟩ := (commits_iff s t).1 h
  rw [committed_datamem, read_datamemAfter hwf hn, if_neg]
  rintro ⟨is_store, same_address⟩
  exact hst ⟨is_store, BitVec.eq_of_toNat_eq same_address.symm⟩

/-- The cycle of a load hands the word at its address, as data memory holds it when the cycle starts, to writeback (R131). -/
theorem Commits.writeData_of_lw {s t : State} (h : Commits s t) (hop : opOf s.exmem.instr = .lw) :
    t.memwb.writeData = s.datamem.read s.exmem.aluResult.toNat := by
  obtain ⟨-, -, -, rfl⟩ := (commits_iff s t).1 h
  simp only [committed_memwb, writeDataMux, hop]

/-! ### A run of committed cycles -/

/-- Every state of a run has data memory in canonical form where the first has. -/
theorem CommitPath.datamem_wf {n : Nat} {p : Nat → State} (h : CommitPath n p) (hwf : (p 0).datamem.wf = true) :
    ∀ k, k ≤ n → (p k).datamem.wf = true
  | 0, _ => hwf
  | k + 1, hk => (h k hk).datamem_wf (h.datamem_wf hwf k (by omega))

/-- From `i` on, the word at an address stays as it is as long as no cycle stores to that address. -/
theorem CommitPath.read_of_no_store {n : Nat} {p : Nat → State} {a : Word} (h : CommitPath n p)
    (hwf : (p 0).datamem.wf = true) {i k : Nat} (hik : i ≤ k) (hkn : k ≤ n)
    (no_store : ∀ j, i ≤ j → j < k → ¬storesTo (p j) a) :
    (p k).datamem.read a.toNat = (p i).datamem.read a.toNat := by
  induction k, hik using Nat.le_induction with
  | base => rfl
  | succ k hik ih =>
    calc (p (k + 1)).datamem.read a.toNat
      _ = (p k).datamem.read a.toNat :=
        (h k hkn).read_of_not_storesTo (h.datamem_wf hwf k (by omega)) (no_store k hik k.lt_succ_self)
      _ = (p i).datamem.read a.toNat := ih (by omega) fun j hij hjk => no_store j hij (by omega)

/-! ### The statements -/

/-- Settles O32, by induction on the number of ticks. -/
theorem instructionMemoryNeverChanges : Obligations.InstructionMemoryNeverChanges := by
  intro n s t h
  exact ticks_induction (Q := fun u => u.instrmem = s.instrmem) (fun _ _ hu hstep => (step_instrmem hstep).trans hu) n s t rfl h

/-- Settles O46: the load reads data memory as the cycles before it left it, and only a store to its address changes that word. -/
theorem loadSeesEveryEarlierStore : Obligations.LoadSeesEveryEarlierStore := by
  intro n p ad h hwf hop had
  have loaded : (p (n + 1)).memwb.writeData = (p n).datamem.read ad.toNat := had ▸ (h n n.lt_succ_self).writeData_of_lw hop
  refine ⟨fun no_store => ?_, fun j hj hst no_later_store => ?_⟩
  · rw [loaded]
    exact h.read_of_no_store hwf n.zero_le n.le_succ fun k _ hk => no_store k hk
  · calc (p (n + 1)).memwb.writeData
      _ = (p n).datamem.read ad.toNat := loaded
      _ = (p (j + 1)).datamem.read ad.toNat := h.read_of_no_store hwf hj n.le_succ no_later_store
      _ = (p j).exmem.readReg := (h j (by omega)).read_of_storesTo (h.datamem_wf hwf j (by omega)) hst

end Sys2Proof.Machine
end

section
/-!
PROOFS of the family 30_encoding: decode and encode agree, the rows of the opcode map, the fields of a word, and the assembler.

A word is `pack` of its own five fields (`pack_fields`). Facts about the decoder, the mask table and the encoder are said on the fields of a word and
carried to the words by that equation.
-/

namespace Sys2Proof.Machine

/-! ### The opcode map (R94) -/

theorem regIdx_cases (n : RegIdx) : n = 0 ∨ n = 1 ∨ n = 2 ∨ n = 3 ∨ n = 4 ∨ n = 5 ∨ n = 6 ∨ n = 7 := by
  revert n
  decide

/-- The row of each opcode number, where bits 31:25 are 0 (R94). `opOf_eq_opcodeRow` ties it to the decoder. -/
def opcodeRow (n : RegIdx) : Op := opOf (pack 0 n 0 0 0)

theorem opcodeRow_injective : Function.Injective opcodeRow := by
  unfold Function.Injective
  decide

theorem opcodeRow_ne_unknown (n : RegIdx) : opcodeRow n ≠ .unknown := by
  revert n
  decide

/-- Each row of the opcode map is that of an opcode number, or UNKNOWN. -/
theorem op_eq_unknown_or_opcodeRow (k : Op) : k = .unknown ∨ ∃ n, k = opcodeRow n := by
  cases k
  case unknown => exact .inl rfl
  all_goals exact .inr (by decide)

/-- The decoder's row depends on bits 31:22 of the word alone (R93). -/
theorem opOf_eq_opcodeRow (w : Word) : opOf w = if tagBits w = 0#7 then opcodeRow (opBits w) else .unknown := by
  rw [← pack_fields w]
  generalize tagBits w = tag, opBits w = n, fA w = a, fB w = b, fC w = c
  rw [tagBits_pack, opBits_pack, opOf, decode_pack]
  split
  · rcases regIdx_cases n with rfl | rfl | rfl | rfl | rfl | rfl | rfl | rfl <;> rfl
  · rfl

theorem opOf_eq_opcodeRow_iff (w : Word) (n : RegIdx) : opOf w = opcodeRow n ↔ tagBits w = 0 ∧ opBits w = n := by
  rw [opOf_eq_opcodeRow]
  split
  case isTrue tag_zero => simp [tag_zero, opcodeRow_injective.eq_iff]
  case isFalse tag_ne => simp [tag_ne, (opcodeRow_ne_unknown n).symm]

theorem opOf_eq_unknown_iff (w : Word) : opOf w = .unknown ↔ tagBits w ≠ 0 := by
  rw [opOf_eq_opcodeRow]
  split
  case isTrue tag_zero => simp [tag_zero, opcodeRow_ne_unknown]
  case isFalse tag_ne => simp [tag_ne]

/-! ### The mask table of the opcode map (R94) -/

theorem pack_eq_pack_iff {tag tag' : BitVec 7} {n n' a a' b b' : RegIdx} {c c' : Field16} :
    pack tag n a b c = pack tag' n' a' b' c' ↔ tag = tag' ∧ n = n' ∧ a = a' ∧ b = b' ∧ c = c' := by
  constructor
  · intro h
    exact ⟨by simpa only [tagBits_pack] using congrArg tagBits h, by simpa only [opBits_pack] using congrArg opBits h,
      by simpa only [fA_pack] using congrArg fA h, by simpa only [fB_pack] using congrArg fB h,
      by simpa only [fC_pack] using congrArg fC h⟩
  · rintro ⟨rfl, rfl, rfl, rfl, rfl⟩
    rfl

/-- The conjunction of two words, field by field. -/
theorem and_eq_pack (w m : Word) :
    w &&& m = pack (tagBits w &&& tagBits m) (opBits w &&& opBits m) (fA w &&& fA m) (fB w &&& fB m) (fC w &&& fC m) := by
  rw [← pack_fields (w &&& m), pack_eq_pack_iff]
  exact ⟨BitVec.extractLsb'_and, BitVec.extractLsb'_and, BitVec.extractLsb'_and, BitVec.extractLsb'_and, BitVec.extractLsb'_and⟩

/-- The mask of the eight opcode rows keeps bits 31:22. -/
theorem and_opcodeMask (w : Word) : w &&& 0xFFC00000#32 = pack (tagBits w) (opBits w) 0 0 0 := by
  have mask : 0xFFC00000#32 = pack (BitVec.allOnes 7) (BitVec.allOnes 3) 0 0 0 := rfl
  rw [and_eq_pack, mask]
  simp only [tagBits_pack, opBits_pack, fA_pack, fB_pack, fC_pack, BitVec.and_allOnes, BitVec.ofNat_eq_ofNat, BitVec.and_zero]

/-- The mask of the UNKNOWN row keeps bits 31:25. -/
theorem and_tagMask (w : Word) : w &&& 0xFE000000#32 = pack (tagBits w) 0 0 0 0 := by
  have mask : 0xFE000000#32 = pack (BitVec.allOnes 7) 0 0 0 0 := rfl
  rw [and_eq_pack, mask]
  simp only [tagBits_pack, opBits_pack, fA_pack, fB_pack, fC_pack, BitVec.and_allOnes, BitVec.ofNat_eq_ofNat, BitVec.and_zero]

/-- A word is in the row of opcode `n` by its bits 31:22. -/
theorem and_opcodeMask_eq_iff (w : Word) (n : RegIdx) :
    w &&& 0xFFC00000#32 = pack 0 n 0 0 0 ↔ tagBits w = 0 ∧ opBits w = n := by
  simp [and_opcodeMask, pack_eq_pack_iff]

theorem rowMatches_opcodeRow_iff (w : Word) (n : RegIdx) :
    Listing.rowMatches (opcodeRow n) w = true ↔ tagBits w = 0 ∧ opBits w = n := by
  rw [← and_opcodeMask_eq_iff]
  rcases regIdx_cases n with rfl | rfl | rfl | rfl | rfl | rfl | rfl | rfl <;> exact beq_iff_eq

theorem rowMatches_unknown_iff (w : Word) : Listing.rowMatches .unknown w = true ↔ tagBits w ≠ 0 := by
  have zero_packed : (0#32 : Word) = pack 0 0 0 0 0 := rfl
  rw [Listing.rowMatches, Listing.rowMask, bne_iff_ne, and_tagMask, zero_packed, Ne, pack_eq_pack_iff]
  simp

/-- The mask and match of a row hold exactly for the words the decoder puts in that row (R94, R95). -/
theorem rowMatches_iff (k : Op) (w : Word) : Listing.rowMatches k w = true ↔ opOf w = k := by
  rcases op_eq_unknown_or_opcodeRow k with rfl | ⟨n, rfl⟩
  · exact (rowMatches_unknown_iff w).trans (opOf_eq_unknown_iff w).symm
  · exact (rowMatches_opcodeRow_iff w n).trans (opOf_eq_opcodeRow_iff w n).symm

theorem decodeTableWord_toNat (w : Word) : decodeTableWord 32 w.toNat = some (decode w) := by
  rw [decodeTableWord, if_pos ⟨le_rfl, w.isLt⟩, BitVec.ofNat_toNat, BitVec.setWidth_eq]

/-! ### Decode and encode (R98) -/

theorem decode_encode {i : Instr} (h : i.wf = true) : decode (encode i) = i := by
  cases i with
  | unknown tag op a b c =>
    have tag_ne : tag ≠ 0#7 := bne_iff_ne.1 h
    exact (decode_pack tag op a b c).trans (if_neg tag_ne)
  | _ => exact decode_pack ..

theorem wf_decode (w : Word) : (decode w).wf = true := by
  unfold decode
  split
  · split <;> rfl
  case isFalse tag_ne => exact bne_iff_ne.2 tag_ne

theorem encode_decode_pack (tag : BitVec 7) (n a b : RegIdx) (c : Field16) :
    encode (decode (pack tag n a b c)) = pack tag n a b c := by
  rw [decode_pack]
  split
  case isTrue tag_zero =>
    subst tag_zero
    rcases regIdx_cases n with rfl | rfl | rfl | rfl | rfl | rfl | rfl | rfl <;> rfl
  · rfl

theorem encode_decode (w : Word) : encode (decode w) = w := by
  rw [← pack_fields w]
  exact encode_decode_pack ..

/-! ### Field C as an integer (R9, R97) -/

/-- `sext_16` keeps the signed reading of the field. -/
theorem sext16_toInt_eq_toInt (c : Field16) : (sext16 c).toInt = c.toInt := by
  rw [sext16_toInt, BitVec.toInt_eq_msb_cond, BitVec.msb_eq_getLsbD_last]
  rfl

/-- An offset in range comes back from its field (R98). -/
theorem sext16_ofInt {n : Int} (lo : -32768 ≤ n) (hi : n ≤ 32767) : (sext16 (BitVec.ofInt 16 n)).toInt = n := by
  rw [sext16_toInt_eq_toInt]
  exact BitVec.toInt_ofInt_eq_self (by decide) lo (by omega)

theorem toNat_ofInt_of_neg {n : Int} (lo : -32768 ≤ n) (hn : n < 0) :
    ((BitVec.ofInt 16 n).toNat : Int) = n + 65536 := by
  rw [BitVec.toNat_ofInt]
  omega

/-! ### The encoder's formula (R98) -/

/-- A field moved up to its place loses no bit. -/
theorem toNat_setWidth_shiftLeft {k : Nat} (x : BitVec k) {n : Nat} (h : k + n ≤ 32) :
    (x.setWidth 32 <<< n).toNat = x.toNat <<< n := by
  have fits : x.toNat <<< n < 2 ^ 32 := by
    rw [Nat.shiftLeft_eq]
    calc x.toNat * 2 ^ n
      _ < 2 ^ k * 2 ^ n := Nat.mul_lt_mul_of_pos_right x.isLt (Nat.two_pow_pos n)
      _ = 2 ^ (k + n) := (Nat.pow_add ..).symm
      _ ≤ 2 ^ 32 := Nat.pow_le_pow_right (by decide) h
  rw [BitVec.toNat_shiftLeft, BitVec.toNat_setWidth_of_le (by omega), Nat.mod_eq_of_lt fits]

theorem toNat_pack_zero (n a b : RegIdx) (c : Field16) :
    (pack 0 n a b c).toNat = (n.toNat <<< 22 ||| a.toNat <<< 19 ||| b.toNat <<< 16 ||| (c.toNat &&& 0xFFFF)) := by
  have field_c : c.toNat &&& 0xFFFF = c.toNat := Nat.and_two_pow_sub_one_of_lt_two_pow c.isLt
  rw [field_c, pack]
  simp only [BitVec.toNat_or]
  rw [toNat_setWidth_shiftLeft _ (by decide), toNat_setWidth_shiftLeft n (by decide), toNat_setWidth_shiftLeft a (by decide),
    toNat_setWidth_shiftLeft b (by decide), BitVec.toNat_setWidth_of_le (by decide)]
  simp

/-! ### The fields of a word by shift and mask (R91, R92) -/

/-- A 3-bit slice by shift and mask, as a number. -/
theorem toNat_shift_and_seven (w : Word) (n : Nat) : ((w >>> n) &&& 7#32).toNat = w.toNat / 2 ^ n % 8 := by
  rw [BitVec.toNat_and, BitVec.toNat_ushiftRight, Nat.shiftRight_eq_div_pow]
  exact Nat.and_two_pow_sub_one_eq_mod _ 3

/-- The mask drops the bits in which the arithmetic shift differs from the logical one. -/
theorem sshiftRight_and_seven (w : Word) {n : Nat} (h : n + 3 ≤ 32) : w.sshiftRight n &&& 7#32 = w >>> n &&& 7#32 := by
  ext i hi
  by_cases low : i < 3
  · have in_word : n + i < 32 := by omega
    simp [BitVec.getElem_sshiftRight, in_word, BitVec.getLsbD_eq_getElem]
  · have masked : (7#32)[i] = false := by
      have seven_lt : 7 < 2 ^ i := lt_of_lt_of_le (by decide : 7 < 2 ^ 3) (Nat.pow_le_pow_right (by decide) (not_lt.1 low))
      rw [BitVec.getElem_eq_testBit_toNat]
      exact Nat.testBit_lt_two_pow seven_lt
    simp [masked]

theorem toNat_extract_three (w : Word) (n : Nat) : (w.extractLsb' n 3).toNat = w.toNat / 2 ^ n % 8 := by
  rw [BitVec.extractLsb'_toNat, Nat.shiftRight_eq_div_pow]

/-- A 3-bit slice in its three forms: by a logical shift, by an arithmetic shift, and by division. -/
theorem toNat_slice_forms (w : Word) {n : Nat} (h : n + 3 ≤ 32) :
    (w.extractLsb' n 3).toNat = ((w >>> n) &&& 7#32).toNat ∧
      (w.extractLsb' n 3).toNat = (w.sshiftRight n &&& 7#32).toNat ∧ (w.extractLsb' n 3).toNat = w.toNat / 2 ^ n % 8 := by
  rw [sshiftRight_and_seven w h, toNat_shift_and_seven, toNat_extract_three]
  exact ⟨rfl, rfl, rfl⟩

theorem fC_toNat (w : Word) : (fC w).toNat = w.toNat % 65536 := by
  simp [fC]

theorem toNat_and_fieldMask (w : Word) : (w &&& 0xFFFF#32).toNat = w.toNat % 65536 := by
  rw [BitVec.toNat_and]
  exact Nat.and_two_pow_sub_one_eq_mod _ 16

/-! ### The assembler (R100) -/

theorem asmReg_of_lt {n : Nat} (h : n < 8) : asmReg n = some (BitVec.ofNat 3 n) := if_pos h

theorem asmReg_of_le {n : Nat} (h : 8 ≤ n) : asmReg n = none := if_neg h.not_gt

theorem asmOffset_of_inRange {n : Int} (lo : -32768 ≤ n) (hi : n ≤ 32767) : asmOffset n = some (BitVec.ofInt 16 n) :=
  if_pos ⟨lo, hi⟩

theorem asmOffset_of_outOfRange {n : Int} (h : n < -32768 ∨ 32767 < n) : asmOffset n = none := if_neg (by omega)

/-- A destination register's number as field C (R100). -/
theorem asmReg_map_setWidth {n : Nat} (h : n < 8) : (asmReg n).map (BitVec.setWidth 16) = some (BitVec.ofNat 16 n) := by
  rw [asmReg_of_lt h, Option.map_some, Option.some.injEq]
  apply BitVec.eq_of_toNat_eq
  rw [BitVec.toNat_setWidth, BitVec.toNat_ofNat, BitVec.toNat_ofNat]
  omega

theorem asmFields_eq_some (op : RegIdx) {a b : Nat} (ha : a < 8) (hb : b < 8) (c : Field16) :
    asmFields op a b (some c) = some (pack 0 op (BitVec.ofNat 3 a) (BitVec.ofNat 3 b) c) := by
  simp only [asmFields, asmReg_of_lt ha, asmReg_of_lt hb]

theorem asmFields_eq_none (op : RegIdx) {a b : Nat} {c : Option Field16} (h : asmReg a = none ∨ asmReg b = none ∨ c = none) :
    asmFields op a b c = none := by
  unfold asmFields
  split
  case h_1 ha hb => simp [ha, hb] at h
  · rfl

theorem asmFields_eq_none_of_le (op : RegIdx) {a b : Nat} (c : Option Field16) (h : 8 ≤ a ∨ 8 ≤ b) :
    asmFields op a b c = none :=
  asmFields_eq_none op (h.elim (fun ha => .inl (asmReg_of_le ha)) fun hb => .inr (.inl (asmReg_of_le hb)))

/-- A line is refused where its field C is. -/
theorem asmFields_none (op : RegIdx) (a b : Nat) : asmFields op a b none = none :=
  asmFields_eq_none op (.inr (.inr rfl))

/-- A line whose packed word is the encoding of an instruction decodes to that instruction. -/
theorem decode_asmFields {op : RegIdx} {a b : Nat} {c : Field16} {i : Instr} (ha : a < 8) (hb : b < 8) (hwf : i.wf = true)
    (hi : encode i = pack 0 op (BitVec.ofNat 3 a) (BitVec.ofNat 3 b) c) :
    (asmFields op a b (some c)).map decode = some i := by
  rw [asmFields_eq_some op ha hb, Option.map_some, ← hi, decode_encode hwf]

/-- ADD and NAND with three register numbers. -/
theorem decode_assemble_registers {a b c : Nat} (ha : a < 8) (hb : b < 8) (hc : c < 8) :
    (assemble (.add a b c)).map decode = some (.add (BitVec.ofNat 3 a) (BitVec.ofNat 3 b) (BitVec.ofNat 16 c)) ∧
      (assemble (.nand a b c)).map decode = some (.nand (BitVec.ofNat 3 a) (BitVec.ofNat 3 b) (BitVec.ofNat 16 c)) := by
  simp only [assemble, asmReg_map_setWidth hc]
  exact ⟨decode_asmFields ha hb rfl rfl, decode_asmFields ha hb rfl rfl⟩

/-- LW, SW and BEQ with an offset. -/
theorem decode_assemble_offset {a b : Nat} {off : Int} (ha : a < 8) (hb : b < 8) (lo : -32768 ≤ off) (hi : off ≤ 32767) :
    (assemble (.lw a b off)).map decode = some (.lw (BitVec.ofNat 3 a) (BitVec.ofNat 3 b) (BitVec.ofInt 16 off)) ∧
      (assemble (.sw a b off)).map decode = some (.sw (BitVec.ofNat 3 a) (BitVec.ofNat 3 b) (BitVec.ofInt 16 off)) ∧
      (assemble (.beq a b off)).map decode = some (.beq (BitVec.ofNat 3 a) (BitVec.ofNat 3 b) (BitVec.ofInt 16 off)) := by
  simp only [assemble, asmOffset_of_inRange lo hi]
  exact ⟨decode_asmFields ha hb rfl rfl, decode_asmFields ha hb rfl rfl, decode_asmFields ha hb rfl rfl⟩

/-! ### The statements -/

/-- Settles O1, by the instruction's row. -/
theorem decodeEncodeAgree : Obligations.DecodeEncodeAgree := fun _ h => decode_encode h

/-- Settles O2: the word is packed from its own fields, and the decoder keeps each of them. -/
theorem encodeDecodeAgree : Obligations.EncodeDecodeAgree := fun w => ⟨wf_decode w, encode_decode w⟩

/-- Settles O3: the rows partition the words because the decoder answers one row for each. -/
theorem everyWordInOneOpcodeRow : Obligations.EveryWordInOneOpcodeRow := fun w =>
  ⟨fun k => rowMatches_iff k w,
    ⟨opOf w, (rowMatches_iff _ w).2 rfl, fun k hk => ((rowMatches_iff k w).1 hk).symm⟩, decodeTableWord_toNat w⟩

/-- Settles O4, by the packed word as a number and its fields. -/
theorem encodedFieldsComeBack : Obligations.EncodedFieldsComeBack := by
  intro op a b c
  refine ⟨toNat_pack_zero op a b c, ⟨tagBits_pack .., opBits_pack .., fA_pack .., fB_pack .., fC_pack ..⟩, fun n lo hn => ?_⟩
  rw [fC_pack]
  exact ⟨toNat_ofInt_of_neg lo hn, sext16_ofInt lo (by omega)⟩

/-- Settles O7: fields A and B are the 3-bit slices at 19 and 16. -/
theorem fieldsAreShiftAndMask : Obligations.FieldsAreShiftAndMask := fun w =>
  ⟨toNat_slice_forms w (by decide), toNat_slice_forms w (by decide),
    ⟨(fC_toNat w).trans (toNat_and_fieldMask w).symm, fC_toNat w⟩, sext16_range (fC w)⟩

/-- Settles O8, clause by clause. -/
theorem assembledLineDecodes : Obligations.AssembledLineDecodes := by
  refine ⟨fun a b c ha hb hc => decode_assemble_registers ha hb hc,
    fun a b off ha hb lo hi => ⟨_, sext16_ofInt lo hi, decode_assemble_offset ha hb lo hi⟩,
    fun a b ha hb => decode_asmFields ha hb rfl rfl, fun a b c off h => ?bad_register, fun a b c h => ?bad_destination,
    fun a b off h => ?bad_offset, ⟨rfl, rfl⟩, fun n lo hi => ?fill, fun n h => if_neg (by omega)⟩
  case bad_register => simp only [assemble, asmFields_eq_none_of_le _ _ h, and_self]
  case bad_destination => simp only [assemble, asmReg_of_le h, Option.map_none, asmFields_none, and_self]
  case bad_offset => simp only [assemble, asmOffset_of_outOfRange h, asmFields_none, and_self]
  case fill => rw [assemble, if_pos ⟨lo, hi⟩, Option.map_some, toInt_wrap32 lo hi]

/-- Settles O5: each word is the encoding of its instruction. -/
theorem writtenWordsDecode : Obligations.WrittenWordsDecode :=
  ⟨decode_encode (i := .add 2 3 1) rfl, decode_encode (i := .nand 1 2 3) rfl, decode_encode (i := .lw 1 2 0xFFFF) rfl,
    decode_encode (i := .sw 1 0 100) rfl, decode_encode (i := .beq 0 0 0xFFFC) rfl, decode_encode (i := .jalr 1 2 0) rfl,
    decode_encode (i := .halt 7 7 0xFFFF) rfl, decode_encode (i := .noop 0 0 0) rfl,
    decode_encode (i := .unknown 1 7 0 0 0) rfl, decode_encode (i := .unknown 127 7 7 7 0xFFFF) rfl⟩

/-- Settles O6: bit 15 is set from 0x8000 on. -/
theorem signExtendsFieldC : Obligations.SignExtendsFieldC := by
  refine ⟨by decide, fun c => ⟨?_, sext16_range c⟩⟩
  simp only [sext16_toInt, getLsbD_15_iff]

end Sys2Proof.Machine
end

section
/-!
PROOFS of the family 40_pipeline: the tick, the stages of a committed cycle, and the listing of R139.

The step is known by `nextState` and a committed cycle by `committed`. The listing is brought to the same two: its opcode, fields and
registers first, then each stage as the fault it raises and the fields it writes.
-/

namespace Sys2Proof.Machine

/-! ### Words, registers and control signals -/

/-- The source's `word >> 22` is bits 31:25 above the three opcode bits (R91, R93). -/
theorem toNat_ushiftRight_opcode (w : Word) : (w >>> 22).toNat = 8 * (tagBits w).toNat + (opBits w).toNat := by
  have := w.isLt
  simp only [tagBits, opBits, BitVec.toNat_ushiftRight, BitVec.extractLsb'_toNat, Nat.shiftRight_eq_div_pow]
  omega

/-- The write port at a field C that names a register (R24). -/
theorem regWrite_setWidth (r : RegFile) {c : Field16} (h : c.toNat < 8) (v : Word) :
    regWrite r (c.setWidth 3) v = r.set c.toNat v h := by
  have index : (c.setWidth 3).toNat = c.toNat := by
    rw [BitVec.toNat_setWidth]
    omega
  simp only [regWrite, index]

/-- ADD and NAND write the register that field C names (R24, R133). -/
theorem regAfter_of_alu {s : State} (hop : opOf s.memwb.instr = .add ∨ opOf s.memwb.instr = .nand)
    (hc : (fC s.memwb.instr).toNat < 8) :
    regAfter s = s.reg.set (fC s.memwb.instr).toNat s.memwb.writeData hc := by
  have writes : destination s.memwb.instr = some ((fC s.memwb.instr).setWidth 3) := by
    rw [destination_eq_some_iff, BitVec.toNat_setWidth]
    exact .inl ⟨hop, by omega⟩
  rw [regAfter, writes, ← regWrite_setWidth]

/-- In a state of the invariant the offset in ID/EX is a sign-extended field C (R33). -/
theorem Inv.offset_range {s : State} (hi : Inv s) : -32768 ≤ s.idex.offset.toInt ∧ s.idex.offset.toInt ≤ 32767 :=
  hi.idex_offset ▸ sext16_range _

/-! ### The step, by what the machine is doing (R120, R121) -/

theorem step_of_stopped {s : State} (hs : s.status ≠ .running) : step s = .next s := by
  rcases step_cases (step_eq s) with ⟨-, h⟩ | ⟨h, -⟩ | ⟨h, -⟩ | ⟨h, -⟩
  · rw [step_eq, h]
  all_goals exact absurd h hs

theorem step_of_halt {s : State} (hs : s.status = .running) (hh : opOf s.memwb.instr = .halt) :
    step s = .next (haltMachine s) := by
  rcases step_cases (step_eq s) with ⟨h, -⟩ | ⟨-, -, h⟩ | ⟨-, h, -⟩ | ⟨-, h, -⟩
  · exact absurd hs h
  · rw [step_eq, h]
  all_goals exact absurd hh h

/-- A running machine with no HALT in MEM/WB runs the cycle. -/
theorem step_eq_cycle {s : State} (hs : s.status = .running) (hh : opOf s.memwb.instr ≠ .halt) : step s = cycle s := by
  have no_halt : haltDetect s = false := Bool.eq_false_iff.2 (mt (haltDetect_iff s).1 hh)
  simp only [step, tick, hs, no_halt, Bool.false_eq_true, if_false]

/-! ### The word placed for the next fetch -/

theorem withFetchWord_of_inIM {s : State} (h : inIM s.pc = true) (n w : Nat) :
    s.withFetchWord n w = { s with instrmem := s.instrmem.write s.pc.toNat (BitVec.ofNat 32 w) } := if_pos h

/-- Placing a word changes instruction memory alone. -/
theorem withFetchWord_frame (s : State) (n w : Nat) : { s.withFetchWord n w with instrmem := s.instrmem } = s := by
  unfold State.withFetchWord
  split <;> rfl

theorem withFetchWord_pc (s : State) (n w : Nat) : (s.withFetchWord n w).pc = s.pc :=
  congrArg (·.pc) (withFetchWord_frame s n w)

/-- The word placed is the one the next fetch reads. -/
theorem fetchedWord_withFetchWord {s : State} (hwf : s.instrmem.wf = true) (h : inIM s.pc = true) (w : Word) :
    fetchedWord (s.withFetchWord 32 w.toNat) = w := by
  rw [withFetchWord_of_inIM h, BitVec.ofNat_toNat, BitVec.setWidth_eq]
  exact (Memory.read_write hwf ((inIM_iff _).1 h) w _).trans (if_pos rfl)

/-! ### A run of committed cycles -/

/-- In a committed cycle every latch hands its word to the one below it (R136). -/
theorem Commits.latches_shift {s t : State} (h : Commits s t) :
    t.ifid.instr = fetchedWord s ∧ t.idex.instr = s.ifid.instr ∧ t.exmem.instr = s.idex.instr ∧
      t.memwb.instr = s.exmem.instr ∧ t.wbend.instr = s.memwb.instr := by
  obtain ⟨-, -, -, rfl⟩ := (commits_iff s t).1 h
  exact ⟨rfl, rfl, rfl, rfl, rfl⟩

/-! ### The listing's words and registers (R91, R93) -/

/-- The source's formula and the decoder put every word in the same class. -/
theorem listing_op (w : Word) : Listing.op w = opOf w := by
  rw [opOf_eq_opcodeRow, Listing.op, toNat_ushiftRight_opcode]
  by_cases tag_zero : tagBits w = 0#7
  · rw [tag_zero]
    rcases regIdx_cases (opBits w) with h | h | h | h | h | h | h | h <;> rw [h] <;> rfl
  · have tag_pos : (tagBits w).toNat ≠ 0 := fun h => tag_zero (BitVec.eq_of_toNat_eq h)
    rw [if_neg tag_zero]
    split
    case h_9 => rfl
    all_goals omega

theorem listing_fieldA (w : Word) : Listing.fieldA w = (fA w).toNat := (toNat_slice_forms w (by decide)).1.symm

theorem listing_fieldB (w : Word) : Listing.fieldB w = (fB w).toNat := (toNat_slice_forms w (by decide)).1.symm

theorem listing_fieldC (w : Word) : Listing.fieldC w = (fC w).toNat := (toNat_and_fieldMask w).trans (fC_toNat w).symm

theorem listing_regAt (r : RegFile) (i : RegIdx) : Listing.regAt r i.toNat = regRead r i := by
  have in_list : i.toNat < r.toList.length := by simpa using i.isLt
  rw [Listing.regAt, List.getD_eq_getElem _ _ in_list, Vector.getElem_toList]
  rfl

theorem listing_setReg (r : RegFile) (i : RegIdx) (v : Word) : Listing.setReg r i.toNat v = regWrite r i v :=
  dif_pos i.isLt

theorem listing_signExtend16 (c : Field16) : wrap32 (Listing.signExtend16 c.toNat) = sext16 c := by
  simp only [Listing.signExtend16, sext16, getLsbD_15_iff]

theorem listing_inRange_iff_inIM (a : Word) : Listing.inRange a ↔ inIM a = true := (inIM_iff_toInt a).symm

theorem listing_inRange_iff_inDM (a : Word) : Listing.inRange a ↔ inDM a = true := (inDM_iff_toInt a).symm

theorem listing_alu (k : Op) (a b o : Word) : Listing.alu k a b o = aluByOp k a b o := by
  cases k
  case beq => simp only [Listing.alu, aluByOp, aluEqual, BitVec.toInt_inj]
  all_goals rfl

theorem listing_haltThere_iff (s : State) : Listing.haltThere s ↔ haltInFlight s = true := by
  simp only [Listing.haltThere, listing_op, haltInFlight_iff]

/-! ### The listing's stages: the fault each raises, and the fields it writes -/

theorem listing_fetch_fault (s s' : State) : (Listing.fetch s s').2 = (fetchFault s).toList := by
  unfold Listing.fetch fetchFault
  simp only [listing_inRange_iff_inIM]
  cases inIM s.pc <;> rfl

theorem listing_fetch_fields {s : State} (h : fetchFault s = none) :
    (Listing.fetch s s).1 =
      { s with
        ifid := (committed s).ifid
        pc := incPc s.pc
        fetched := (committed s).fetched } := by
  have pc_in : inIM s.pc = true := by simpa [fetchFault] using h
  unfold Listing.fetch
  simp only [listing_inRange_iff_inIM, pc_in, if_true, listing_haltThere_iff, committed_fetched]
  split <;> rfl

theorem listing_decode (s s' : State) : Listing.decode s s' = { s' with idex := (committed s).idex } := by
  simp only [Listing.decode, listing_fieldA, listing_fieldB, listing_fieldC, listing_regAt, listing_signExtend16, committed_idex]

theorem listing_execute (s s' : State) : Listing.execute s s' = { s' with exmem := (committed s).exmem } := by
  simp only [Listing.execute, listing_op, listing_alu, committed_exmem, branchTargetOf]

theorem listing_memory_fault (s s' : State) : (Listing.memory s s').2 = (memFault s).toList := by
  unfold Listing.memory memFault
  simp only [listing_inRange_iff_inDM, listing_op]
  cases opOf s.exmem.instr
  case lw => cases inDM s.exmem.aluResult <;> rfl
  case sw => cases inDM s.exmem.aluResult <;> rfl
  case beq => dsimp only; split <;> rfl
  all_goals rfl

/-- The memory stage writes MEM/WB, data memory, the pc and the branch count, over an S' that has all of them but the pc still from
S. -/
theorem listing_memory_fields {s s' : State} (h : memFault s = none) (hw : s'.memwb = s.memwb) (hd : s'.datamem = s.datamem)
    (hb : s'.branches = s.branches) :
    (Listing.memory s s').1 =
      { s' with
        memwb := (committed s).memwb
        datamem := (committed s).datamem
        pc := if brTaken s then s.exmem.branchTarget else s'.pc
        branches := (committed s).branches } := by
  unfold Listing.memory Listing.setWriteData
  rw [committed_memwb, committed_datamem, committed_branches]
  simp only [listing_op, listing_inRange_iff_inDM]
  have data_in : opOf s.exmem.instr = .lw ∨ opOf s.exmem.instr = .sw → inDM s.exmem.aluResult = true := by
    simpa [memFault] using h
  cases hop : opOf s.exmem.instr
  case lw => simp [data_in (.inl hop), writeDataMux, datamemAfter, brTaken, hop, hd, hb]
  case sw => simp [data_in (.inr hop), writeDataMux, datamemAfter, brTaken, hop, hw, hb]
  case beq =>
    have same_test : s.exmem.aluResult.toInt ≠ 0 ↔ s.exmem.aluResult ≠ 0 := BitVec.toInt_ne (y := 0)
    by_cases not_taken : s.exmem.aluResult = 0#32
    · simp [not_taken, writeDataMux, datamemAfter, brTaken, branchTaken, hop, hw, hd, hb]
    · simp [same_test, not_taken, writeDataMux, datamemAfter, brTaken, branchTaken, hop, hw, hd]
  all_goals simp [writeDataMux, datamemAfter, brTaken, hop, hd, hb]

theorem listing_writeback_fault (s s' : State) : (Listing.writeback s s').2 = (wbFault s).toList := by
  unfold Listing.writeback wbFault
  simp only [listing_op, listing_fieldC]
  by_cases hc : (fC s.memwb.instr).toNat ≤ 7
  · have no_fault : ¬8 ≤ (fC s.memwb.instr).toNat := by omega
    cases opOf s.memwb.instr <;> simp [hc, no_fault]
  · have faults : 8 ≤ (fC s.memwb.instr).toNat := by omega
    have value : BitVec.ofNat 32 (fC s.memwb.instr).toNat = zext16 (fC s.memwb.instr) := BitVec.ofNat_toNat ..
    cases opOf s.memwb.instr <;> simp [hc, faults, value]

/-- Writeback writes WB/END, the registers and the retirement count, over an S' that has the last two still from S. -/
theorem listing_writeback_fields {s s' : State} (h : wbFault s = none) (hr : s'.reg = s.reg) (hn : s'.retired = s.retired) :
    (Listing.writeback s s').1 =
      { s' with
        wbend := (committed s).wbend
        reg := (committed s).reg
        retired := (committed s).retired } := by
  have index_in : opOf s.memwb.instr = .add ∨ opOf s.memwb.instr = .nand → (fC s.memwb.instr).toNat < 8 := by
    simpa [wbFault] using h
  have write_index (hop : opOf s.memwb.instr = .add ∨ opOf s.memwb.instr = .nand) :
      (fC s.memwb.instr).toNat ≤ 7 ∧ Listing.setReg s.reg (fC s.memwb.instr).toNat s.memwb.writeData = regAfter s :=
    ⟨Nat.le_of_lt_succ (index_in hop), (dif_pos (index_in hop)).trans (regAfter_of_alu hop (index_in hop)).symm⟩
  unfold Listing.writeback
  rw [committed_wbend, committed_reg, committed_retired]
  simp only [listing_op, listing_fieldA, listing_fieldC, listing_setReg]
  cases hop : opOf s.memwb.instr
  case add => simp [write_index (.inl hop), retires, hop]
  case nand => simp [write_index (.inr hop), retires, hop]
  all_goals simp [regAfter, destination, retires, hop, hr, hn]

/-- The stages of a cycle without a fault leave the fields of `committed`, the cycle count apart. -/
theorem listing_stages {s : State} (h : raised s = none) :
    (Listing.writeback s (Listing.memory s (Listing.execute s (Listing.decode s (Listing.fetch s s).1))).1).1 =
      { committed s with cycles := s.cycles } := by
  obtain ⟨no_wb, no_mem, no_fetch⟩ : wbFault s = none ∧ memFault s = none ∧ fetchFault s = none := by simpa [raised] using h
  simp only [listing_fetch_fields no_fetch, listing_decode, listing_execute, listing_memory_fields no_mem,
    listing_writeback_fields no_wb]
  rfl

/-- The listing's cycle reports the oldest fault or commits (R134, R224). -/
theorem listing_cycle (s : State) :
    Listing.cycle s =
      match raised s with
      | some r => { s with status := .faulted r }
      | none => committed s := by
  unfold Listing.cycle
  simp only [listing_writeback_fault, listing_memory_fault, listing_fetch_fault]
  cases hw : wbFault s with
  | some r => simp [raised, hw]
  | none =>
    cases hm : memFault s with
    | some r => simp [raised, hw, hm]
    | none =>
      cases hf : fetchFault s with
      | some r => simp [raised, hw, hm, hf]
      | none =>
        have hr : raised s = none := by simp [raised, hw, hm, hf]
        simp only [Option.toList_none, List.append_nil, hr, listing_stages hr]
        rfl

/-- The listing's tick is the step's (R120, R139). -/
theorem listing_tick (s : State) : Listing.tick s = nextState s := by
  unfold Listing.tick nextState
  rw [listing_op, listing_cycle]
  cases s.status with
  | running => exact (if_neg (not_not_intro rfl)).trans rfl
  | halted => rfl
  | faulted r => rfl

/-! ### The statements -/

/-- Settles O21: the step and the listing both leave `nextState`. -/
theorem stepEqualsTheListing : Obligations.StepEqualsTheListing := fun s =>
  (step_eq s).trans (congrArg _ (listing_tick s).symm)

/-- Settles O22, by the four things a step can do. -/
theorem tickHaltsOrRunsOneCycle : Obligations.TickHaltsOrRunsOneCycle := by
  refine fun s => ⟨step_of_stopped, step_of_halt, fun hs hh => ⟨nextState s, step_eq s, ?_⟩⟩
  rcases step_cases (step_eq s) with ⟨h, -⟩ | ⟨-, h, -⟩ | ⟨-, -, r, -, faults⟩ | ⟨-, -, -, commits⟩
  · exact absurd hs h
  · exact absurd h hh
  · exact .inr ⟨r, faults⟩
  · rw [commits]
    exact .inl ⟨committed_cycles s, hs⟩

/-- Settles O26: a cycle that commits raised no fetch fault. -/
theorem fetchOfACommittedCycle : Obligations.FetchOfACommittedCycle := by
  intro s t h
  obtain ⟨-, -, hn, rfl⟩ := (commits_iff s t).1 h
  obtain ⟨-, -, pc_in⟩ := (raised_eq_none_iff s).1 hn
  refine ⟨toInt_of_inIM pc_in, ?_, ?_, ?_⟩
  · rw [committed_ifid, incPc_eq_add_one, fetchedWord]
  · simp only [committed_pc, brTaken_iff, incPc_eq_add_one]
  · simp only [committed_fetched, haltInFlight_iff]

/-- Settles O27: decode reads the registers of the start, and writeback's data is there afterwards. -/
theorem decodeReadsOldRegisters : Obligations.DecodeReadsOldRegisters := by
  intro s t h
  obtain ⟨-, -, -, rfl⟩ := (commits_iff s t).1 h
  refine ⟨rfl, ?_⟩
  rintro r writes rfl
  exact ⟨rfl, by rw [committed_reg, regRead_regAfter, if_pos writes]⟩

/-- Settles O28: under the invariant the branch target needs no narrowing. -/
theorem executeOfACommittedCycle : Obligations.ExecuteOfACommittedCycle := by
  intro s t h
  obtain ⟨-, -, -, rfl⟩ := (commits_iff s t).1 h
  refine ⟨?_, fun hi => branchTargetOf_toInt hi.idex_pc1 hi.offset_range⟩
  rw [committed_exmem]
  cases opOf s.idex.instr <;> rfl

/-- Settles O29, by the opcode class in EX/MEM. -/
theorem memoryOfACommittedCycle : Obligations.MemoryOfACommittedCycle := by
  intro s t h
  obtain ⟨-, -, hn, rfl⟩ := (commits_iff s t).1 h
  obtain ⟨-, data_in_range, -⟩ := (raised_eq_none_iff s).1 hn
  refine ⟨rfl, ?_⟩
  rw [committed_memwb, committed_datamem, committed_branches, committed_pc]
  cases hop : opOf s.exmem.instr
  case lw =>
    have address_in := (inDM_iff_toInt _).1 (data_in_range (.inl hop))
    simp [address_in, writeDataMux, datamemAfter, brTaken, hop]
  case sw =>
    have address_in := (inDM_iff_toInt _).1 (data_in_range (.inr hop))
    simp [address_in, writeDataMux, datamemAfter, brTaken, hop]
  case beq =>
    refine ⟨by simp [writeDataMux, hop], by simp [datamemAfter, hop], fun taken => ?_, fun not_taken => ?_⟩
    · simp [(brTaken_iff s).2 ⟨hop, taken⟩]
    · simp [brTaken, branchTaken, not_taken]
  all_goals simp [writeDataMux, datamemAfter, brTaken, hop]

/-- Settles O30, by the opcode class in MEM/WB. -/
theorem writebackOfACommittedCycle : Obligations.WritebackOfACommittedCycle := by
  intro s t h
  obtain ⟨-, not_halt, hn, rfl⟩ := (commits_iff s t).1 h
  obtain ⟨index_in_range, -, -⟩ := (raised_eq_none_iff s).1 hn
  refine ⟨rfl, ?_⟩
  rw [committed_reg, committed_retired]
  cases hop : opOf s.memwb.instr
  case add => exact ⟨⟨index_in_range (.inl hop), regAfter_of_alu (.inl hop) _⟩, by simp [retires, hop]⟩
  case nand => exact ⟨⟨index_in_range (.inr hop), regAfter_of_alu (.inr hop) _⟩, by simp [retires, hop]⟩
  case halt => exact not_halt hop
  case lw => simp [regAfter, regWrite, destination, retires, hop]
  all_goals simp [regAfter, destination, retires, hop]

/-- Settles O37: the word moves down one latch in each of the five cycles. -/
theorem wordPassesEveryStage : Obligations.WordPassesEveryStage := by
  intro p h
  have shift := fun k (hk : k < 5) => (h k hk).latches_shift
  obtain ⟨fetched, -⟩ := shift 0 (by decide)
  obtain ⟨-, to_idex, -⟩ := shift 1 (by decide)
  obtain ⟨-, -, to_exmem, -⟩ := shift 2 (by decide)
  obtain ⟨-, -, -, to_memwb, -⟩ := shift 3 (by decide)
  obtain ⟨-, -, -, -, to_wbend⟩ := shift 4 (by decide)
  rw [to_wbend, to_memwb, to_exmem, to_idex, fetched]
  exact ⟨rfl, rfl, rfl, rfl, rfl, fun k hk => (shift k hk).2⟩

/-- Settles O10: the meanings share one fetch stage. -/
theorem fetchIsTheSameForEveryInstruction : Obligations.FetchIsTheSameForEveryInstruction := by
  intro i s hs
  rw [exec_fetch i s hs]
  rcases fetchStage_spec s with ⟨pc_in, fetches⟩ | ⟨pc_out, faults⟩
  · have pc_range := toInt_of_inIM pc_in
    refine ⟨fun _ => ?_, fun out => absurd pc_range (by omega)⟩
    simp only [fetches, incPc_eq_add_one, haltInFlight_iff]
  · refine ⟨fun pc_range => ?_, fun _ => congrArg _ faults⟩
    rw [(inIM_iff_toInt _).2 pc_range] at pc_out
    contradiction

/-- Settles O11: the meanings share one decode stage, on the instruction's own fields. -/
theorem decodeIsTheSameForEveryInstruction : Obligations.DecodeIsTheSameForEveryInstruction :=
  fun i s hs => exec_decode i s hs

/-- Settles O20: the step is the cycle, and the cycle commits its five parts. -/
theorem stepRunsTheFiveInstructions : Obligations.StepRunsTheFiveInstructions := fun s hs hh _ =>
  ⟨_, _, _, _, _, exec_fetch _ _ rfl, exec_decode _ _ rfl, exec_execute _ _ rfl, exec_memory _ _ rfl, exec_writeback _ _ rfl,
    (step_eq_cycle hs hh).trans (cycle_eq_commit s)⟩

/-- Settles O54: a committed cycle fetched, so the pc was in range and the word was placed. -/
theorem placedWordIsFetchedNext : Obligations.PlacedWordIsFetchedNext := by
  intro s t w hwf h
  refine ⟨?_, withFetchWord_frame s 32 w.toNat⟩
  obtain ⟨fetched, -⟩ := h.latches_shift
  obtain ⟨-, -, hn, -⟩ := (commits_iff _ t).1 h
  obtain ⟨-, -, pc_in⟩ := (raised_eq_none_iff _).1 hn
  rw [withFetchWord_pc] at pc_in
  rw [fetched, fetchedWord_withFetchWord hwf pc_in]

end Sys2Proof.Machine
end

section
/-!
PROOFS of the family 41_alu: the arithmetic of the ALU, and ADD and NAND stage by stage and over the whole pipeline.

ADD and NAND differ only in the value the execute stage computes, so each other fact is said once for the two. The net effect follows the word from
IF/ID down: two cycles to its ALU result, one to hand it on, one to write it.
-/

namespace Sys2Proof.Machine

/-! ### Arithmetic (R172) -/

theorem aluEqual_eq_one_iff (a b : Word) : aluEqual a b = 1 ↔ a = b := by
  unfold aluEqual
  split <;> simp_all

theorem aluNand_self (a : Word) : aluNand a a = ~~~a := by rw [aluNand, BitVec.and_self]

/-- Subtraction from NAND and ADD: `-a = ~a + 1`. -/
theorem aluAdd_aluNand_self_eq_sub (a b : Word) : aluAdd b (aluAdd (aluNand a a) 1) = b - a := by
  have neg : ~~~a + 1 = -a := (BitVec.neg_eq_not_add a).symm
  rw [aluAdd_eq_add, aluAdd_eq_add, aluNand_self, neg, BitVec.sub_eq_add_neg]

/-! ### The stage operations of ADD and NAND -/

/-- Execute with the branch target as a 32-bit sum (R129). -/
theorem executeStage_eq_add (v : Word) (s : State) :
    executeStage v s =
      { s with
        exmem :=
          { instr := s.idex.instr, branchTarget := s.idex.pc1 + s.idex.offset, aluResult := v, readReg := s.idex.regA } } := by
  rw [executeStage, branchTargetOf_eq_add]

/-- Writeback where field C names a register (R133). -/
theorem writebackIndex_of_lt {c : Field16} (h : c.toNat < 8) (s : State) :
    writebackIndex c s =
      { s with
        wbend := { instr := s.memwb.instr, writeData := s.memwb.writeData }
        reg := s.reg.set c.toNat s.memwb.writeData h
        retired := s.retired + 1 } := by
  rw [← regWrite_setWidth]
  exact if_pos h

/-! ### The way of a word down the pipeline -/

/-- The word in IF/ID has its ALU result in EX/MEM two committed cycles on, from the registers as they stood when it was decoded (R128, R130). -/
theorem Commits.aluResult_of_ifid {s t u : State} (decoded : Commits s t) (executed : Commits t u) :
    u.exmem.aluResult =
      aluByOp (opOf s.ifid.instr) (regRead s.reg (fA s.ifid.instr)) (regRead s.reg (fB s.ifid.instr)) (sext16 (fC s.ifid.instr)) := by
  obtain ⟨-, -, -, rfl⟩ := (commits_iff s t).1 decoded
  obtain ⟨-, -, -, rfl⟩ := (commits_iff _ u).1 executed
  rfl

/-- The memory stage of ADD and NAND hands the ALU result to writeback (R131). -/
theorem Commits.writeData_of_alu {s t : State} (h : Commits s t) (hop : opOf s.exmem.instr = .add ∨ opOf s.exmem.instr = .nand) :
    t.memwb.writeData = s.exmem.aluResult := by
  obtain ⟨-, -, -, rfl⟩ := (commits_iff s t).1 h
  rcases hop with hop | hop <;> simp only [committed_memwb, writeDataMux, hop]

/-- The writeback of ADD and NAND: no fault was raised, so field C names a register, and that register takes the data (R133, R221). -/
theorem Commits.writeback_of_alu {s t : State} (h : Commits s t) (hop : opOf s.memwb.instr = .add ∨ opOf s.memwb.instr = .nand) :
    ∃ hc : (fC s.memwb.instr).toNat < 8,
      t.reg = s.reg.set (fC s.memwb.instr).toNat s.memwb.writeData hc ∧ t.retired = s.retired + 1 := by
  obtain ⟨-, -, hn, rfl⟩ := (commits_iff s t).1 h
  obtain ⟨index_in_range, -, -⟩ := (raised_eq_none_iff s).1 hn
  have counts : retires s.memwb.instr = true := (retires_iff _).2 (hop.imp_right .inl)
  exact ⟨index_in_range hop, regAfter_of_alu hop _, if_pos counts⟩

/-- The net effect of the word of an ADD or a NAND in IF/ID, four committed cycles on. -/
theorem CommitPath.alu_net_effect {p : Nat → State} {i : Instr} (h : CommitPath 4 p) (hw : decode (p 0).ifid.instr = i)
    (hop : i.op = .add ∨ i.op = .nand) :
    ∃ hc : i.fieldC.toNat < 8,
      (p 4).reg =
          (p 3).reg.set i.fieldC.toNat
            (aluByOp i.op (regRead (p 0).reg i.fieldA) (regRead (p 0).reg i.fieldB) (sext16 i.fieldC)) hc ∧
        (p 4).retired = (p 3).retired + 1 := by
  subst hw
  obtain ⟨-, to_idex, -⟩ := (h 0 (by decide)).latches_shift
  obtain ⟨-, -, to_exmem, -⟩ := (h 1 (by decide)).latches_shift
  obtain ⟨-, -, -, to_memwb, -⟩ := (h 2 (by decide)).latches_shift
  have word_at_mem : (p 2).exmem.instr = (p 0).ifid.instr := to_exmem.trans to_idex
  have word_at_wb : (p 3).memwb.instr = (p 0).ifid.instr := to_memwb.trans word_at_mem
  have data := ((h 2 (by decide)).writeData_of_alu (word_at_mem ▸ hop)).trans
    ((h 0 (by decide)).aluResult_of_ifid (h 1 (by decide)))
  have written := (h 3 (by decide)).writeback_of_alu (word_at_wb ▸ hop)
  rw [fieldA_decode, fieldB_decode, fieldC_decode]
  simp only [word_at_wb, data] at written
  exact written

/-! ### The statements -/

/-- Settles O9: each sum is one 32-bit sum, and a word is equal to another exactly when either reading is. -/
theorem sumsAreModulo32Bits : Obligations.SumsAreModulo32Bits := by
  intro a b
  rw [aluEqual_eq_one_iff, effectiveAddress_eq_add, aluAdd_eq_add a b]
  exact ⟨⟨BitVec.toNat_add a b, BitVec.toInt_add a b⟩, BitVec.toNat_add a b, BitVec.toNat_eq, BitVec.toInt_inj.symm,
    aluNand_self a, aluAdd_aluNand_self_eq_sub a b⟩

/-- Settles O38: the two net effects are one, with the ALU result of the opcode class. -/
theorem aluInstructionNetEffect : Obligations.AluInstructionNetEffect := by
  refine fun p a b c h => ⟨fun hw => ?_, fun hw => ?_⟩
  · have word : decode (p 0).ifid.instr = .add a b c := hw ▸ decode_encode rfl
    rw [← aluAdd_eq_add]
    exact h.alu_net_effect word (.inl rfl)
  · have word : decode (p 0).ifid.instr = .nand a b c := hw ▸ decode_encode rfl
    exact h.alu_net_effect word (.inr rfl)

/-- Settles O12, by the three stages. -/
theorem addCompletes : Obligations.AddCompletes := by
  refine fun a b c s => ⟨fun hs => ?execute, fun hs => exec_memory _ s hs, fun hs hc => ?writeback⟩
  case execute => rw [exec_execute _ s hs, executeStage_eq_add, aluOf, aluAdd_eq_add]
  case writeback => exact (exec_writeback _ s hs).trans (congrArg _ (writebackIndex_of_lt hc s))

/-- Settles O13, by the three stages. -/
theorem nandCompletes : Obligations.NandCompletes := by
  refine fun a b c s => ⟨fun hs => ?execute, fun hs => exec_memory _ s hs, fun hs hc => ?writeback⟩
  case execute => rw [exec_execute _ s hs, executeStage_eq_add, aluOf, aluNand]
  case writeback => exact (exec_writeback _ s hs).trans (congrArg _ (writebackIndex_of_lt hc s))

end Sys2Proof.Machine
end

section
/-!
PROOFS of the family 42_loadstore: LW and SW stage by stage and over the whole pipeline.

LW and SW share their addressing mode (R182): the address is said once for the two, in the execute stage and as it stands in EX/MEM two committed
cycles after the word was in IF/ID. A cycle that commits raised no DATA_OOB, so that address is one of data memory.
-/

namespace Sys2Proof.Machine

/-! ### The fields of an encoded word -/

/-- The word of a well-formed instruction has the opcode class and the fields of that instruction (R92, R98). -/
theorem fields_of_eq_encode {w : Word} {i : Instr} (hi : i.wf = true) (hw : w = encode i) :
    opOf w = i.op ∧ fA w = i.fieldA ∧ fB w = i.fieldB ∧ fC w = i.fieldC := by
  have decoded : decode w = i := hw ▸ decode_encode hi
  rw [← decoded]
  exact ⟨rfl, (fieldA_decode w).symm, (fieldB_decode w).symm, (fieldC_decode w).symm⟩

/-! ### The stages of LW and SW -/

/-- The ALU result of the two opcode classes is the effective address (R130, R182). -/
theorem aluByOp_of_access {k : Op} (hk : k = .lw ∨ k = .sw) (a b o : Word) : aluByOp k a b o = b + o := by
  rcases hk with rfl | rfl <;> exact effectiveAddress_eq_add b o

/-- The ALU result of a meaning is that of its opcode class (R130). -/
theorem aluOf_eq_aluByOp (i : Instr) (d : IDEX) : aluOf i d = aluByOp i.op d.regA d.regB d.offset := by
  cases i <;> rfl

/-- LW and SW compute the one effective address in execute (R182). -/
theorem exec_execute_of_access {i : Instr} {s : State} (hop : i.op = .lw ∨ i.op = .sw) (hs : s.stage = .execute) :
    exec i s =
      .next
        { s with
          exmem :=
            { instr := s.idex.instr, branchTarget := s.idex.pc1 + s.idex.offset, aluResult := s.idex.regB + s.idex.offset,
              readReg := s.idex.regA } } := by
  rw [exec_execute i s hs, executeStage_eq_add, aluOf_eq_aluByOp, aluByOp_of_access hop]

/-- The memory stage of a load at an address of data memory (R131). -/
theorem memoryLoad_of_inDM {s : State} (h : inDM s.exmem.aluResult = true) :
    memoryLoad s = memoryPass (s.datamem.read s.exmem.aluResult.toNat) s := if_pos h

/-- The memory stage of a store to an address of data memory (R131, R132). -/
theorem memoryStore_of_inDM {s : State} (h : inDM s.exmem.aluResult = true) :
    memoryStore s = { memoryHold s with datamem := s.datamem.write s.exmem.aluResult.toNat s.exmem.readReg } := if_pos h

/-! ### One committed cycle -/

/-- A committed cycle raised no DATA_OOB: the address of its load or store is in range (R221). -/
theorem Commits.address_lt {s t : State} (h : Commits s t) (hop : opOf s.exmem.instr = .lw ∨ opOf s.exmem.instr = .sw) :
    s.exmem.aluResult.toNat < 65536 := by
  obtain ⟨-, -, hn, -⟩ := (commits_iff s t).1 h
  obtain ⟨-, data_in_range, -⟩ := (raised_eq_none_iff s).1 hn
  exact (inDM_iff _).1 (data_in_range hop)

/-- The memory stage of a store changes the word at its address alone (R131). -/
theorem Commits.read_of_sw {s t : State} (h : Commits s t) (hop : opOf s.exmem.instr = .sw) (hwf : s.datamem.wf = true) (x : Nat) :
    t.datamem.read x = if x = s.exmem.aluResult.toNat then s.exmem.readReg else s.datamem.read x := by
  obtain ⟨-, -, hn, rfl⟩ := (commits_iff s t).1 h
  simp only [committed_datamem, read_datamemAfter hwf hn, hop, true_and]

/-- The writeback of LW: the register that field A names takes the data (R133). -/
theorem Commits.writeback_of_lw {s t : State} (h : Commits s t) (hop : opOf s.memwb.instr = .lw) :
    t.reg = regWrite s.reg (fA s.memwb.instr) s.memwb.writeData ∧ t.retired = s.retired + 1 := by
  have written := (writebackOfACommittedCycle s t h).2
  rw [hop] at written
  exact written

/-- The writeback of SW writes no register (R133). -/
theorem Commits.writeback_of_sw {s t : State} (h : Commits s t) (hop : opOf s.memwb.instr = .sw) :
    t.reg = s.reg ∧ t.retired = s.retired + 1 := by
  have written := (writebackOfACommittedCycle s t h).2
  rw [hop] at written
  exact written

/-! ### The way of a word down the pipeline -/

/-- The word in IF/ID has the register of its field A in EX/MEM two committed cycles on, as it stood when the word was decoded (R128, R129). -/
theorem Commits.readReg_of_ifid {s t u : State} (decoded : Commits s t) (executed : Commits t u) :
    u.exmem.readReg = regRead s.reg (fA s.ifid.instr) := by
  obtain ⟨-, -, -, rfl⟩ := (commits_iff s t).1 decoded
  obtain ⟨-, -, -, rfl⟩ := (commits_iff _ u).1 executed
  rfl

/-- The word in IF/ID stands in EX/MEM two committed cycles on and in MEM/WB a cycle later (R136). -/
theorem CommitPath.word_of_ifid {p : Nat → State} (h : CommitPath 4 p) :
    (p 2).exmem.instr = (p 0).ifid.instr ∧ (p 3).memwb.instr = (p 0).ifid.instr := by
  obtain ⟨-, to_idex, -⟩ := (h 0 (by decide)).latches_shift
  obtain ⟨-, -, to_exmem, -⟩ := (h 1 (by decide)).latches_shift
  obtain ⟨-, -, -, to_memwb, -⟩ := (h 2 (by decide)).latches_shift
  rw [to_memwb, to_exmem, to_idex]
  exact ⟨rfl, rfl⟩

/-- The word of an LW or SW in IF/ID has base plus offset in EX/MEM two committed cycles on, and that is an address of data memory (R182, R221). -/
theorem CommitPath.address_of_ifid {p : Nat → State} (h : CommitPath 4 p)
    (hop : opOf (p 0).ifid.instr = .lw ∨ opOf (p 0).ifid.instr = .sw) :
    (p 2).exmem.aluResult = regRead (p 0).reg (fB (p 0).ifid.instr) + sext16 (fC (p 0).ifid.instr) ∧
      (p 2).exmem.aluResult.toNat ≤ 65535 := by
  obtain ⟨at_mem, -⟩ := h.word_of_ifid
  refine ⟨?_, Nat.le_of_lt_succ ((h 2 (by decide)).address_lt (at_mem ▸ hop))⟩
  rw [(h 0 (by decide)).aluResult_of_ifid (h 1 (by decide)), aluByOp_of_access hop]

/-- No cycle of a run writes instruction memory (R30). -/
theorem CommitPath.instrmem {n : Nat} {p : Nat → State} (h : CommitPath n p) :
    ∀ k, k ≤ n → (p k).instrmem = (p 0).instrmem
  | 0, _ => rfl
  | k + 1, hk => (congrArg State.instrmem (h.next hk)).trans (h.instrmem k (by omega))

/-! ### The statements -/

/-- Settles O39: two cycles to the address, one to read the word there, one to write it to the register. -/
theorem loadNetEffect : Obligations.LoadNetEffect := by
  intro p a b c h hw
  obtain ⟨is_load, rfl, rfl, rfl⟩ : opOf (p 0).ifid.instr = .lw ∧ fA _ = a ∧ fB _ = b ∧ fC _ = c := fields_of_eq_encode rfl hw
  obtain ⟨at_mem, at_wb⟩ := h.word_of_ifid
  obtain ⟨address, in_range⟩ := h.address_of_ifid (.inl is_load)
  have loaded := (h 2 (by decide)).writeData_of_lw (at_mem ▸ is_load)
  have written := (h 3 (by decide)).writeback_of_lw (at_wb ▸ is_load)
  rw [at_wb, loaded] at written
  rw [← address]
  exact ⟨in_range, written⟩

/-- Settles O40: two cycles to the address and the data, one to store, one to retire. -/
theorem storeNetEffect : Obligations.StoreNetEffect := by
  intro p a b c h hw
  obtain ⟨is_store, rfl, rfl, rfl⟩ : opOf (p 0).ifid.instr = .sw ∧ fA _ = a ∧ fB _ = b ∧ fC _ = c := fields_of_eq_encode rfl hw
  obtain ⟨at_mem, at_wb⟩ := h.word_of_ifid
  obtain ⟨address, in_range⟩ := h.address_of_ifid (.inr is_store)
  have data := (h 0 (by decide)).readReg_of_ifid (h 1 (by decide))
  have stored := (h 2 (by decide)).read_of_sw (at_mem ▸ is_store)
  obtain ⟨same_regs, counted⟩ := (h 3 (by decide)).writeback_of_sw (at_wb ▸ is_store)
  rw [← address, ← data]
  exact ⟨in_range, stored, h.instrmem 3 (by decide), counted, same_regs⟩

/-- Settles O14, by the three stages. -/
theorem loadCompletes : Obligations.LoadCompletes := by
  refine fun a b c s => ⟨exec_execute_of_access (.inl rfl), fun hs lo hi => ?memory, fun hs => exec_writeback _ s hs⟩
  case memory => exact (exec_memory _ s hs).trans (congrArg _ (memoryLoad_of_inDM ((inDM_iff_toInt _).2 ⟨lo, hi⟩)))

/-- Settles O15, by the three stages; in memory the address is one that data memory has, so the write takes place there alone. -/
theorem storeCompletes : Obligations.StoreCompletes := by
  refine fun a b c s => ⟨exec_execute_of_access (.inr rfl), fun hs lo hi => ?memory, fun hs => exec_writeback _ s hs⟩
  case memory =>
    have address_in : inDM s.exmem.aluResult = true := (inDM_iff_toInt _).2 ⟨lo, hi⟩
    exact ⟨(exec_memory _ s hs).trans (congrArg _ (memoryStore_of_inDM address_in)),
      fun hwf => Memory.read_write hwf ((inDM_iff _).1 address_in) _⟩

end Sys2Proof.Machine
end

section
/-!
PROOFS of the family 43_branch: BEQ stage by stage, its three shadow words, and a BEQ in the shadow of another.

A BEQ is said in two committed cycles: the one in which it leaves ID/EX, which makes its target and its condition, and the one in which it leaves
EX/MEM, which sets the pc from them. The statements over a run chain the two; the shadow words are the latches' shift.
-/

namespace Sys2Proof.Machine

/-! ### The stages of BEQ -/

/-- The memory stage of a taken branch (R131, R132). -/
theorem memoryBranch_of_ne_zero {s : State} (h : s.exmem.aluResult ≠ 0) :
    memoryBranch s = { memoryHold s with pc := s.exmem.branchTarget, branches := s.branches + 1 } := if_pos (bne_iff_ne.2 h)

/-- The memory stage of a branch that is not taken (R131, R132). -/
theorem memoryBranch_of_eq_zero {s : State} (h : s.exmem.aluResult = 0) : memoryBranch s = memoryHold s :=
  if_neg fun taken => bne_iff_ne.1 taken h

/-! ### One committed cycle -/

/-- The execute stage of a BEQ: its target, and a result other than 0 exactly when its operands are equal (R129, R130). -/
theorem Commits.execute_of_beq {s t : State} (h : Commits s t) (hop : opOf s.idex.instr = .beq) :
    t.exmem.branchTarget = s.idex.pc1 + s.idex.offset ∧ (t.exmem.aluResult ≠ 0 ↔ s.idex.regA = s.idex.regB) := by
  obtain ⟨-, -, -, rfl⟩ := (commits_iff s t).1 h
  rw [committed_exmem, hop]
  exact ⟨branchTargetOf_eq_add _ _, aluEqual_ne_zero_iff _ _⟩

/-- The memory stage of a BEQ: taken, it sets the pc and is counted; otherwise the pc goes on (R123, R131). -/
theorem Commits.memory_of_beq {s t : State} (h : Commits s t) (hop : opOf s.exmem.instr = .beq) :
    t.pc = (if s.exmem.aluResult ≠ 0 then s.exmem.branchTarget else s.pc + 1) ∧
      t.branches = s.branches + (if s.exmem.aluResult ≠ 0 then 1 else 0) := by
  obtain ⟨-, -, -, rfl⟩ := (commits_iff s t).1 h
  have taken_iff : brTaken s = true ↔ s.exmem.aluResult ≠ 0 := (brTaken_iff s).trans (and_iff_right hop)
  simp only [committed_pc, committed_branches, taken_iff, incPc_eq_add_one, add_ite, add_zero, and_self]

/-- The writeback of BEQ counts it, taken or not (R133). -/
theorem Commits.retired_of_beq {s t : State} (h : Commits s t) (hop : opOf s.memwb.instr = .beq) : t.retired = s.retired + 1 := by
  have written := (writebackOfACommittedCycle s t h).2
  rw [hop] at written
  exact written.2

/-! ### A run of committed cycles -/

/-- Every fetch of a run reads the instruction memory the run starts with, at the pc of its cycle (R30, R124). -/
theorem CommitPath.ifid_instr {n : Nat} {p : Nat → State} (h : CommitPath n p) {k : Nat} (hk : k < n) :
    (p (k + 1)).ifid.instr = (p 0).instrmem.read (p k).pc.toNat := by
  obtain ⟨fetched, -⟩ := (h k hk).latches_shift
  rw [fetched, fetchedWord, h.instrmem k hk.le]

/-- The three words fetched after the word in IF/ID stand behind it three committed cycles on, whatever that word is (R191). -/
theorem CommitPath.shadow_words {n : Nat} {p : Nat → State} (h : CommitPath n p) (hn : 3 ≤ n) :
    (p 3).exmem.instr = fetchedWord (p 0) ∧ (p 3).idex.instr = fetchedWord (p 1) ∧ (p 3).ifid.instr = fetchedWord (p 2) := by
  obtain ⟨fetched₀, -⟩ := (h 0 (by omega)).latches_shift
  obtain ⟨fetched₁, to_idex₁, -⟩ := (h 1 (by omega)).latches_shift
  obtain ⟨fetched₂, to_idex₂, to_exmem₂, -⟩ := (h 2 (by omega)).latches_shift
  exact ⟨to_exmem₂.trans (to_idex₁.trans fetched₀), to_idex₂.trans fetched₁, fetched₂⟩

/-- A BEQ in IF/ID has its target and its condition in EX/MEM two committed cycles on, from the registers as they stood when it was decoded
(R128, R190). -/
theorem CommitPath.branch_of_ifid {n : Nat} {p : Nat → State} (h : CommitPath n p) (hn : 2 ≤ n) (hop : opOf (p 0).ifid.instr = .beq) :
    (p 2).exmem.branchTarget = (p 0).ifid.pc1 + sext16 (fC (p 0).ifid.instr) ∧
      ((p 2).exmem.aluResult ≠ 0 ↔ regRead (p 0).reg (fA (p 0).ifid.instr) = regRead (p 0).reg (fB (p 0).ifid.instr)) := by
  obtain ⟨decoded, -⟩ := decodeReadsOldRegisters _ _ (h 0 (by omega))
  have executed := (h 1 (by omega)).execute_of_beq (decoded ▸ hop)
  rwa [decoded] at executed

/-! ### The statements -/

/-- Settles O41: the shadow words by the latches' shift, the pc by the BEQ's execute and memory cycles. -/
theorem branchShadowIsThreeWords : Obligations.BranchShadowIsThreeWords := by
  intro p a b c h hw
  obtain ⟨is_beq, rfl, rfl, rfl⟩ : opOf (p 0).ifid.instr = .beq ∧ fA _ = a ∧ fB _ = b ∧ fC _ = c := fields_of_eq_encode rfl hw
  obtain ⟨at_mem, at_wb⟩ := h.word_of_ifid
  obtain ⟨target, taken_iff⟩ := h.branch_of_ifid (by decide) is_beq
  obtain ⟨next_pc, counted⟩ := (h 2 (by decide)).memory_of_beq (at_mem ▸ is_beq)
  obtain ⟨fetched, -⟩ := (h 3 (by decide)).latches_shift
  simp only [taken_iff, target] at next_pc counted
  exact ⟨h.shadow_words (by decide), next_pc, counted, fetched, (h 3 (by decide)).retired_of_beq (at_wb ▸ is_beq)⟩

/-- Settles O42: the first BEQ's memory cycle is the second one's execute cycle, so the second sets the pc one cycle later. -/
theorem branchInTheShadowWins : Obligations.BranchInTheShadowWins := by
  intro p h first_is_beq first_taken second_is_beq same_operands
  obtain ⟨-, -, second_at_mem, -⟩ := (h 0 (by decide)).latches_shift
  obtain ⟨second_target, second_taken_iff⟩ := (h 0 (by decide)).execute_of_beq second_is_beq
  obtain ⟨pc₁, -⟩ := (h 0 (by decide)).memory_of_beq first_is_beq
  obtain ⟨pc₂, -⟩ := (h 1 (by decide)).memory_of_beq (second_at_mem ▸ second_is_beq)
  rw [if_pos first_taken] at pc₁
  rw [if_pos (second_taken_iff.2 same_operands), second_target] at pc₂
  exact ⟨pc₁, pc₂, pc₁ ▸ h.ifid_instr (k := 1) (by decide), pc₂ ▸ h.ifid_instr (k := 2) (by decide)⟩

/-- Settles O16, by the three stages; the memory stage taken and not taken. -/
theorem branchCompletes : Obligations.BranchCompletes := by
  refine fun a b c s => ⟨fun hs => ?execute, fun hs taken => ?taken, fun hs not_taken => ?not_taken, fun hs => exec_writeback _ s hs⟩
  case execute => rw [exec_execute _ s hs, executeStage_eq_add, aluOf, aluEqual]
  case taken => exact (exec_memory _ s hs).trans (congrArg _ (memoryBranch_of_ne_zero taken))
  case not_taken => exact (exec_memory _ s hs).trans (congrArg _ (memoryBranch_of_eq_zero not_taken))

end Sys2Proof.Machine
end

section
/-!
PROOFS of the family 44_control: HALT over the pipeline, and HALT, JALR, NOOP and the UNKNOWN words stage by stage.

A HALT in IF/ID is in flight in each of the next three committed cycles, one latch further in each, so none of their fetches is counted; the fourth
tick finds it in MEM/WB.
-/

namespace Sys2Proof.Machine

/-! ### One committed cycle -/

/-- A committed cycle leaves the machine running (R134). -/
theorem Commits.running {s t : State} (h : Commits s t) : t.status = .running := by
  obtain ⟨is_running, -, -, rfl⟩ := (commits_iff s t).1 h
  exact is_running

/-- Behind a HALT in IF/ID, ID/EX or EX/MEM a fetch is not counted (R125). -/
theorem Commits.fetched_of_halt {s t : State} (h : Commits s t)
    (hop : opOf s.ifid.instr = .halt ∨ opOf s.idex.instr = .halt ∨ opOf s.exmem.instr = .halt) : t.fetched = s.fetched := by
  obtain ⟨-, -, -, rfl⟩ := (commits_iff s t).1 h
  have in_flight : haltInFlight s = true := (haltInFlight_iff s).2 (by tauto)
  rw [committed_fetched, if_pos in_flight]

/-! ### A run of committed cycles -/

/-- Each cycle of a run counts itself (R28, R134). -/
theorem CommitPath.cycles {n : Nat} {p : Nat → State} (h : CommitPath n p) : ∀ k, k ≤ n → (p k).cycles = (p 0).cycles + k
  | 0, _ => rfl
  | k + 1, hk => by
    obtain ⟨-, -, counted⟩ := h k hk
    rw [counted, h.cycles k (by omega), Nat.add_assoc]

/-- The latches that the word in IF/ID reaches in the next three committed cycles (R136). -/
theorem CommitPath.descent_of_ifid {n : Nat} {p : Nat → State} (h : CommitPath n p) (hn : 3 ≤ n) :
    (p 1).idex.instr = (p 0).ifid.instr ∧ (p 2).exmem.instr = (p 0).ifid.instr ∧ (p 3).memwb.instr = (p 0).ifid.instr := by
  obtain ⟨-, to_idex, -⟩ := (h 0 (by omega)).latches_shift
  obtain ⟨-, -, to_exmem, -⟩ := (h 1 (by omega)).latches_shift
  obtain ⟨-, -, -, to_memwb, -⟩ := (h 2 (by omega)).latches_shift
  rw [to_memwb, to_exmem, to_idex]
  exact ⟨rfl, rfl, rfl⟩

/-- The three fetches behind a HALT in IF/ID are not counted (R260). -/
theorem CommitPath.fetched_of_halt_ifid {n : Nat} {p : Nat → State} (h : CommitPath n p) (hn : 3 ≤ n)
    (hop : opOf (p 0).ifid.instr = .halt) : (p 3).fetched = (p 0).fetched := by
  obtain ⟨at_ex, at_mem, -⟩ := h.descent_of_ifid hn
  calc (p 3).fetched
    _ = (p 2).fetched := (h 2 (by omega)).fetched_of_halt (.inr (.inr (at_mem ▸ hop)))
    _ = (p 1).fetched := (h 1 (by omega)).fetched_of_halt (.inr (.inl (at_ex ▸ hop)))
    _ = (p 0).fetched := (h 0 (by omega)).fetched_of_halt (.inl hop)

/-! ### The stages of the words without effect -/

/-- The execute stage of a meaning whose ALU result is 0 (R129, R130). -/
theorem exec_execute_of_aluOf_eq_zero {i : Instr} {s : State} (hs : s.stage = .execute) (hz : aluOf i s.idex = 0) :
    exec i s =
      .next
        { s with
          exmem :=
            { instr := s.idex.instr, branchTarget := s.idex.pc1 + s.idex.offset, aluResult := 0, readReg := s.idex.regA } } := by
  rw [exec_execute i s hs, hz, executeStage_eq_add]

/-- JALR, NOOP and the UNKNOWN words have one meaning: 0 from execute and memory, and in writeback the copy alone (R201 to R203). -/
theorem parts_of_no_effect {i : Instr} (hop : i.op = .jalr ∨ i.op = .noop ∨ i.op = .unknown) (s : State) :
    aluOf i s.idex = 0 ∧ memoryOf i s = memoryPass 0 s ∧ writebackOf i s = writebackCopy s := by
  cases i
  case jalr | noop | unknown => exact ⟨rfl, rfl, rfl⟩
  all_goals simp [Instr.op] at hop

/-! ### The statements -/

/-- Settles O43: after three cycles the HALT is in MEM/WB of a machine that still runs, and its shadow words are behind it. -/
theorem haltStopsAtMemWb : Obligations.HaltStopsAtMemWb := by
  intro p h is_halt
  obtain ⟨-, -, at_wb⟩ := h.descent_of_ifid le_rfl
  have still_running := (h 2 (by decide)).running
  exact ⟨step_of_halt still_running (at_wb ▸ is_halt), h.cycles 3 le_rfl, h.fetched_of_halt_ifid le_rfl is_halt,
    h.shadow_words le_rfl⟩

/-- Settles O17, by the three stages of the meaning the words share. -/
theorem wordsWithoutEffectComplete : Obligations.WordsWithoutEffectComplete := by
  intro i s hop
  obtain ⟨alu_zero, passes_zero, copies⟩ := parts_of_no_effect hop s
  refine ⟨fun hs => exec_execute_of_aluOf_eq_zero hs alu_zero, fun hs => ?memory, fun hs => ?writeback⟩
  case memory => rw [exec_memory i s hs, passes_zero, memoryPass]
  case writeback => rw [exec_writeback i s hs, copies, writebackCopy]

/-- Settles O18, by the three stages. -/
theorem haltCompletes : Obligations.HaltCompletes := fun _ _ _ s =>
  ⟨fun hs => exec_execute_of_aluOf_eq_zero hs rfl, fun hs => exec_memory _ s hs, fun hs => exec_writeback _ s hs⟩

end Sys2Proof.Machine
end

section
/-!
PROOFS of the family 60_exceptions: which fault a cycle reports, how a stop lasts and is left, what nothing depends on, and how the pc leaves its range.

The three faults of a cycle are said with the ranges as the spec writes them, so that the fault reported is read off `raised`. That a field is never
read is said as an equation: a step sees `State.readPart` of its state alone.
-/

namespace Sys2Proof.Machine

/-! ### Ranges (R67) -/

/-- Outside instruction memory, by the signed reading. -/
theorem inIM_eq_false_iff (a : Word) : inIM a = false ↔ ¬(0 ≤ a.toInt ∧ a.toInt ≤ 65535) := by
  rw [← inIM_iff_toInt, Bool.not_eq_true]

/-- Outside data memory, by the signed reading. -/
theorem inDM_eq_false_iff (a : Word) : inDM a = false ↔ ¬(0 ≤ a.toInt ∧ a.toInt ≤ 65535) := by
  rw [← inDM_iff_toInt, Bool.not_eq_true]

/-- The one way up out of instruction memory by counting: the fetch of its last word (R124). -/
theorem incPc_leaves_range {pc : Word} (pc_in : inIM pc = true) (next_out : inIM (incPc pc) = false) :
    pc.toInt = 65535 ∧ (incPc pc).toInt = 65536 := by
  have pc_range := toInt_of_inIM pc_in
  have next_range := (inIM_eq_false_iff _).1 next_out
  rw [incPc_toInt pc_in] at next_range ⊢
  omega

/-! ### The stages that raise a fault -/

theorem memoryLoad_of_not_inDM {s : State} (h : inDM s.exmem.aluResult = false) :
    memoryLoad s = raiseFault s .dataOob .memory s.exmem.aluResult (some s.exmem.instr) :=
  if_neg (Bool.eq_false_iff.1 h)

theorem memoryStore_of_not_inDM {s : State} (h : inDM s.exmem.aluResult = false) :
    memoryStore s = raiseFault s .dataOob .memory s.exmem.aluResult (some s.exmem.instr) :=
  if_neg (Bool.eq_false_iff.1 h)

/-- The record names field C by its number. -/
theorem writebackIndex_of_gt {c : Field16} (h : 7 < c.toNat) (s : State) :
    writebackIndex c s = raiseFault s .regIndexOob .writeback (BitVec.ofNat 32 c.toNat) (some s.memwb.instr) := by
  rw [BitVec.ofNat_toNat]
  exact if_neg (Nat.not_lt.2 h)

/-! ### The faults of a cycle, as R221 lists them -/

theorem wbFault_eq (s : State) :
    wbFault s =
      if (opOf s.memwb.instr = .add ∨ opOf s.memwb.instr = .nand) ∧ 7 < (fC s.memwb.instr).toNat then
        some
          { cause := .regIndexOob, stage := .writeback, value := BitVec.ofNat 32 (fC s.memwb.instr).toNat,
            instr := some s.memwb.instr }
      else none := by
  rw [BitVec.ofNat_toNat]
  rfl

theorem memFault_eq (s : State) :
    memFault s =
      if (opOf s.exmem.instr = .lw ∨ opOf s.exmem.instr = .sw) ∧
          ¬(0 ≤ s.exmem.aluResult.toInt ∧ s.exmem.aluResult.toInt ≤ 65535) then
        some { cause := .dataOob, stage := .memory, value := s.exmem.aluResult, instr := some s.exmem.instr }
      else none := by
  simp only [memFault, inDM_eq_false_iff]

theorem fetchFault_eq (s : State) :
    fetchFault s =
      if ¬(0 ≤ s.pc.toInt ∧ s.pc.toInt ≤ 65535) then
        some { cause := .fetchOob, stage := .fetch, value := s.pc, instr := none }
      else none := by
  simp only [fetchFault, inIM_eq_false_iff]

/-! ### The step -/

/-- A cycle that raises a fault changes the status alone (R223). -/
theorem step_of_raised {s : State} {r : FaultRecord} (hs : s.status = .running) (hh : opOf s.memwb.instr ≠ .halt)
    (hr : raised s = some r) : step s = .next { s with status := .faulted r } := by
  rw [step_eq_cycle hs hh, cycle_eq s hs hh, hr]

/-- A cycle that raises no fault commits (R134). -/
theorem commits_of_raised_none {s : State} (hs : s.status = .running) (hh : opOf s.memwb.instr ≠ .halt)
    (hn : raised s = none) : Commits s (committed s) :=
  (commits_iff _ _).2 ⟨hs, hh, hn, rfl⟩

theorem nextState_of_step {s t : State} (h : step s = .next t) : nextState s = t :=
  Host.Outcome.next.inj ((step_eq s).symm.trans h)

/-- Only a committed cycle changes the pc: to the target of a taken BEQ, or to the next word (R123). -/
theorem step_pc_cases {s t : State} (h : step s = .next t) :
    t.pc = s.pc ∨ (brTaken s = true ∧ t.pc = s.exmem.branchTarget) ∨ t.pc = incPc s.pc := by
  rcases commits_or_stops h with hc | ⟨-, st, rfl⟩
  · obtain ⟨-, -, -, rfl⟩ := (commits_iff s t).1 hc
    rw [committed_pc]
    cases taken : brTaken s with
    | true => exact .inr (.inl ⟨rfl, rfl⟩)
    | false => exact .inr (.inr rfl)
  · exact .inl rfl

/-! ### Reset -/

theorem launch_of_imageOk {image : List Int} (h : imageOk image = true) (regs : RegFile) :
    launch image regs = some { state := loadedState image regs, nummemory := image.length } :=
  (launch_eq_some_iff ..).2 ⟨resetWith_of_imageOk h regs, rfl⟩

theorem respond_reset_of_launch {image : List Int} {regs : RegFile} {b' : Block} (h : launch image regs = some b') (b : Block) :
    respond b (.reset image regs) = .next b' := by
  rw [respond, h]

/-! ### What a step reads -/

/-- The state with the fields that influence no other, the counters, WB/END and the model's own `stage`, at their reset values. -/
def State.readPart (s : State) : State :=
  { s with
    cycles := 0, fetched := 0, retired := 0, branches := 0, mispreds := 0, wbend := State.reset.wbend, stage := .fetch }

/-- What a step leaves in the fields that are read depends on those fields alone (R231). -/
theorem readPart_nextState (s : State) : (nextState s.readPart).readPart = (nextState s).readPart := by
  rcases step_cases (step_eq s) with ⟨hs, stays⟩ | ⟨hs, hh, halts⟩ | ⟨hs, hh, r, hr, faults⟩ | ⟨hs, hh, hn, commits⟩
  · have same : step s.readPart = .next s.readPart := step_of_stopped hs
    rw [stays, nextState_of_step same]
    rfl
  · have same : step s.readPart = .next (haltMachine s.readPart) := step_of_halt hs hh
    rw [halts, nextState_of_step same]
    rfl
  · have same : step s.readPart = .next { s.readPart with status := .faulted r } := step_of_raised hs hh hr
    rw [faults, nextState_of_step same]
    rfl
  · obtain ⟨-, same, -⟩ := commits_of_raised_none (s := s.readPart) hs hh hn
    rw [commits, nextState_of_step same]
    rfl

theorem readPart_nextState_congr {s s' : State} (h : s'.readPart = s.readPart) :
    (nextState s').readPart = (nextState s).readPart := by
  rw [← readPart_nextState, h, readPart_nextState]

/-- States with the same part that is read agree on every field of it. -/
theorem fields_of_readPart_eq {s s' : State} (h : s'.readPart = s.readPart) :
    s'.pc = s.pc ∧ s'.instrmem = s.instrmem ∧ s'.datamem = s.datamem ∧ s'.reg = s.reg ∧ s'.ifid = s.ifid ∧
      s'.idex = s.idex ∧ s'.exmem = s.exmem ∧ s'.memwb = s.memwb ∧ s'.status = s.status :=
  ⟨(congrArg State.pc h :), (congrArg State.instrmem h :), (congrArg State.datamem h :), (congrArg State.reg h :),
    (congrArg State.ifid h :), (congrArg State.idex h :), (congrArg State.exmem h :), (congrArg State.memwb h :),
    (congrArg State.status h :)⟩

/-! ### The statements -/

/-- Settles O23: `raised` takes the first of the three faults whose condition holds. -/
theorem faultRaisedExactlyWhen : Obligations.FaultRaisedExactlyWhen := by
  refine ⟨⟨rfl, rfl, rfl⟩, fun s hs hh => ⟨fun wb => ?writeback, fun no_wb mem => ?memory, fun no_wb no_mem fetch => ?fetch,
    fun no_wb no_mem no_fetch => ?commits⟩⟩
  case writeback => exact step_of_raised hs hh (by rw [raised, wbFault_eq, if_pos wb, Option.some_or])
  case memory =>
    exact step_of_raised hs hh (by rw [raised, wbFault_eq, if_neg no_wb, memFault_eq, if_pos mem, Option.none_or, Option.some_or])
  case fetch =>
    refine step_of_raised hs hh ?_
    rw [raised, wbFault_eq, if_neg no_wb, memFault_eq, if_neg no_mem, fetchFault_eq, if_pos fetch, Option.none_or, Option.none_or]
  case commits =>
    have no_fault : raised s = none := by
      rw [raised, wbFault_eq, if_neg no_wb, memFault_eq, if_neg no_mem, fetchFault_eq, if_neg no_fetch, Option.none_or,
        Option.none_or]
    exact ⟨committed s, commits_of_raised_none hs hh no_fault, hs⟩

/-- Settles O25: a stopped state is a fixed point of the tick, and reset reads nothing of the block it replaces. -/
theorem onlyResetLeavesAStop : Obligations.OnlyResetLeavesAStop := by
  refine ⟨fun n s hs => ?lasts, fun b image regs h => ?reset⟩
  case lasts => rw [ticks_eq_iterate, Function.iterate_fixed (nextState_of_step (step_of_stopped hs))]
  case reset =>
    have launched := launch_of_imageOk h regs
    exact ⟨_, respond_reset_of_launch launched b, launched, rfl⟩

/-- Settles O35: the two states have the same part that is read. -/
theorem countersAndWbEndAreNeverRead : Obligations.CountersAndWbEndAreNeverRead := by
  intro s t c f r b m e k h
  obtain rfl : nextState s = t := nextState_of_step h
  exact ⟨_, step_eq _, fields_of_readPart_eq (readPart_nextState_congr rfl)⟩

/-- Settles O36, by the three things a step can do to the pc. -/
theorem pcLeavesRangeInTwoWays : Obligations.PcLeavesRangeInTwoWays := by
  intro s t h pc_in next_out
  rcases step_pc_cases h with kept | ⟨taken, to_target⟩ | counted
  · rw [kept, pc_in] at next_out
    contradiction
  · obtain ⟨is_beq, result_ne⟩ := (brTaken_iff s).1 taken
    exact .inl ⟨is_beq, result_ne, to_target⟩
  · rw [counted] at next_out ⊢
    exact .inr (incPc_leaves_range pc_in next_out)

/-- Settles O19: LW and SW share one condition and one record, ADD and NAND one writeback. -/
theorem instructionsFaultOutOfRange : Obligations.InstructionsFaultOutOfRange := by
  refine ⟨fun a b c s hs out => ?memory, fun a b c s hs hc => ?writeback⟩
  case memory =>
    have address_out : inDM s.exmem.aluResult = false := (inDM_eq_false_iff _).2 (by omega)
    exact ⟨(exec_memory _ s hs).trans (congrArg _ (memoryLoad_of_not_inDM address_out)),
      (exec_memory _ s hs).trans (congrArg _ (memoryStore_of_not_inDM address_out))⟩
  case writeback =>
    have faults := writebackIndex_of_gt hc s
    exact ⟨(exec_writeback _ s hs).trans (congrArg _ faults), (exec_writeback _ s hs).trans (congrArg _ faults)⟩

/-- Settles O24: the halt check comes first; a cycle at a pc out of range cannot commit. -/
theorem haltCheckPrecedesFaults : Obligations.HaltCheckPrecedesFaults := by
  intro s t hs h
  obtain rfl : nextState s = t := nextState_of_step h
  refine ⟨fun hh => nextState_of_step (step_of_halt hs hh), fun hh pc_out => ?_⟩
  rcases step_cases h with ⟨stopped, -⟩ | ⟨-, is_halt, -⟩ | ⟨-, -, r, -, faults⟩ | ⟨-, -, no_fault, -⟩
  · exact absurd hs stopped
  · exact absurd is_halt hh
  · exact ⟨r, faults⟩
  · obtain ⟨-, -, pc_in⟩ := (raised_eq_none_iff s).1 no_fault
    rw [pc_in] at pc_out
    contradiction

end Sys2Proof.Machine
end

section
/-!
PROOFS of the family 70_reset_and_hazards: which images reset takes, the invariant along every run, what a reader sees of a writer ahead of it, and the
totals of a halted run.

A register changes only by the writeback of a word that names it (R24), so its value is carried along a run from one such writeback to the next; the
hazard statements read it off in decode. The totals rest on one description of the pipeline: one sequence of words, the four NOOPs of the reset
latches and then the words as they are fetched, moves through the latches a word a cycle (`pipeWord`). Each counter counts the cycles in which the word
in its latch has a property, which is a count over that sequence.
-/

namespace Sys2Proof.Machine

/-! ### Reset -/

/-- Reset answers a state exactly for an image the loader takes (R250, R251). -/
theorem resetWith_eq_some_iff {image : List Int} {regs : RegFile} {s : State} :
    resetWith image regs = some s ↔ imageOk image = true ∧ loadedState image regs = s :=
  Option.ite_none_right_eq_some.trans (and_congr_right fun _ => by rw [Option.some.injEq, loadedState])

theorem resetWith_eq_none_iff (image : List Int) (regs : RegFile) :
    resetWith image regs = none ↔ ¬imageOk image = true := by
  rw [Option.eq_none_iff_forall_ne_some]
  simp [resetWith_eq_some_iff]

/-- The loader refuses an image for its length or for one of its values (R251). -/
theorem not_imageOk_iff (image : List Int) :
    ¬imageOk image = true ↔ 65536 < image.length ∨ ∃ n, n ∈ image ∧ (n < -2147483648 ∨ 2147483647 < n) := by
  rw [imageOk_iff, not_and_or, Nat.not_le]
  simp only [not_forall, exists_prop, not_and_or, Int.not_le]

/-- The reset state of any image and registers meets the invariant. -/
theorem inv_of_resetWith {image : List Int} {regs : RegFile} {s : State} (h : resetWith image regs = some s) : Inv s := by
  obtain ⟨taken, rfl⟩ := resetWith_eq_some_iff.1 h
  exact inv_loadedState taken regs

/-! ### The registers in a committed cycle and along a run -/

/-- Writeback changes the destination register alone (R24, R133). -/
theorem Commits.regRead_reg {s t : State} (h : Commits s t) (r : RegIdx) :
    regRead t.reg r = if destination s.memwb.instr = some r then s.memwb.writeData else regRead s.reg r := by
  obtain ⟨-, -, -, rfl⟩ := (commits_iff s t).1 h
  exact regRead_regAfter s r

/-- Decode reads a register that the word in IF/ID names as the cycle finds it (R127, R128). -/
theorem Commits.operands_of_ifid {s t : State} (h : Commits s t) (r : RegIdx) :
    (fA s.ifid.instr = r → t.idex.regA = regRead s.reg r) ∧ (fB s.ifid.instr = r → t.idex.regB = regRead s.reg r) := by
  obtain ⟨decoded, -⟩ := decodeReadsOldRegisters s t h
  rw [decoded]
  exact ⟨fun names => names ▸ rfl, fun names => names ▸ rfl⟩

/-- From `i` on, a register keeps its value as long as no word that names it is written back. -/
theorem CommitPath.regRead_of_no_writeback {n : Nat} {p : Nat → State} (h : CommitPath n p) {r : RegIdx} {i k : Nat} (hik : i ≤ k)
    (hkn : k ≤ n) (no_writer : ∀ j, i ≤ j → j < k → destination (p j).memwb.instr ≠ some r) :
    regRead (p k).reg r = regRead (p i).reg r := by
  induction k, hik using Nat.le_induction with
  | base => rfl
  | succ k hik ih =>
    calc regRead (p (k + 1)).reg r
      _ = regRead (p k).reg r := by rw [(h k hkn).regRead_reg, if_neg (no_writer k hik k.lt_succ_self)]
      _ = regRead (p i).reg r := ih (by omega) fun j hij hjk => no_writer j hij (by omega)

/-- A register that no word ahead of IF/ID writes keeps its value for the next three cycles, until the word in IF/ID is in MEM/WB (R255). -/
theorem CommitPath.regRead_of_no_older_writer {n : Nat} {p : Nat → State} (h : CommitPath n p) (hn : 3 ≤ n) {r : RegIdx}
    (at_ex : destination (p 0).idex.instr ≠ some r) (at_mem : destination (p 0).exmem.instr ≠ some r)
    (at_wb : destination (p 0).memwb.instr ≠ some r) {k : Nat} (hk : k ≤ 3) :
    regRead (p k).reg r = regRead (p 0).reg r := by
  obtain ⟨-, -, ex_to_mem, mem_to_wb₀, -⟩ := (h 0 (by omega)).latches_shift
  obtain ⟨-, -, -, mem_to_wb₁, -⟩ := (h 1 (by omega)).latches_shift
  refine h.regRead_of_no_writeback k.zero_le (by omega) fun j _ hj => ?_
  obtain rfl | rfl | rfl : j = 0 ∨ j = 1 ∨ j = 2 := by omega
  · exact at_wb
  · exact mem_to_wb₀ ▸ at_mem
  · exact mem_to_wb₁.trans ex_to_mem ▸ at_ex

/-! ### The words in the pipeline of a run from reset -/

/-- The word that stands in MEM/WB in cycle `i` of a run from reset: the four NOOPs of the reset latches, then the words fetched from cycle 0 on (R38,
R136). `CommitPath.latches_eq_pipeWord` ties it to the run. -/
def pipeWord (p : Nat → State) (i : Nat) : Word := if i < 4 then Config.noopWord else fetchedWord (p (i - 4))

theorem pipeWord_of_lt (p : Nat → State) {i : Nat} (h : i < 4) : pipeWord p i = Config.noopWord := if_pos h

theorem pipeWord_add_four (p : Nat → State) (k : Nat) : pipeWord p (k + 4) = fetchedWord (p k) := if_neg (by omega)

section
variable {n : Nat} {p : Nat → State} {image : List Int} {regs : RegFile}

/-- Every latch of a run from reset: the word in MEM/WB in cycle `k + d` is `d` latches above it in cycle `k`. -/
theorem CommitPath.latches_eq_pipeWord (run : CommitPath n p) (start : resetWith image regs = some (p 0)) :
    ∀ k, k ≤ n → (p k).ifid.instr = pipeWord p (k + 3) ∧ (p k).idex.instr = pipeWord p (k + 2) ∧
      (p k).exmem.instr = pipeWord p (k + 1) ∧ (p k).memwb.instr = pipeWord p k
  | 0, _ => by
    obtain ⟨-, loaded⟩ := resetWith_eq_some_iff.1 start
    rw [← loaded]
    exact ⟨rfl, rfl, rfl, rfl⟩
  | k + 1, hk => by
    obtain ⟨at_id, at_ex, at_mem, -⟩ := run.latches_eq_pipeWord start k (by omega)
    obtain ⟨fetched, to_idex, to_exmem, to_memwb, -⟩ := (run k hk).latches_shift
    exact ⟨fetched.trans (pipeWord_add_four p k).symm, to_idex.trans at_id, to_exmem.trans at_ex, to_memwb.trans at_mem⟩

/-- Before the first HALT is fetched in cycle `h`, and in that cycle, no HALT is in flight. -/
theorem CommitPath.haltInFlight_of_le (run : CommitPath n p) (start : resetWith image regs = some (p 0)) {h : Nat}
    (no_halt : ∀ k, k < h → opOf (fetchedWord (p k)) ≠ .halt) {k : Nat} (hkn : k ≤ n) (hkh : k ≤ h) : haltInFlight (p k) = false := by
  have word_no_halt : ∀ i, i < h + 4 → opOf (pipeWord p i) ≠ .halt := by
    intro i hi
    unfold pipeWord
    split
    · decide
    · exact no_halt (i - 4) (by omega)
  obtain ⟨at_id, at_ex, at_mem, at_wb⟩ := run.latches_eq_pipeWord start k hkn
  rw [← Bool.not_eq_true, haltInFlight_iff, at_id, at_ex, at_mem, at_wb]
  simp only [not_or]
  exact ⟨word_no_halt _ (by omega), word_no_halt _ (by omega), word_no_halt _ (by omega), word_no_halt _ (by omega)⟩

/-! ### The counters of a run from reset, as numbers of cycles -/

/-- A counter that starts at 0 and goes up in the cycles with property `q` counts those cycles. -/
theorem eq_countP_range {f : Nat → Nat} {q : Nat → Bool} {n : Nat} (zero : f 0 = 0)
    (succ : ∀ k, k < n → f (k + 1) = if q k then f k + 1 else f k) : ∀ k, k ≤ n → f k = (List.range k).countP q
  | 0, _ => zero
  | k + 1, hk => by
    rw [succ k hk, eq_countP_range zero succ k (by omega), List.range_succ, List.countP_append, List.countP_singleton]
    split <;> rfl

/-- Where the first `c` cycles do not count, the count starts at cycle `c`. -/
theorem countP_range_add {q : Nat → Bool} {c : Nat} (first : ∀ i, i < c → q i = false) (n : Nat) :
    (List.range (n + c)).countP q = (List.range n).countP fun k => q (k + c) := by
  have none_of_first : (List.range c).countP q = 0 :=
    List.countP_eq_zero.2 fun i hi => Bool.eq_false_iff.1 (first i (List.mem_range.1 hi))
  rw [Nat.add_comm n c, List.range_add, List.countP_append, none_of_first, Nat.zero_add, List.countP_map]
  simp only [Function.comp_def, Nat.add_comm c]

theorem counters_of_resetWith {s : State} (start : resetWith image regs = some s) :
    s.cycles = 0 ∧ s.fetched = 0 ∧ s.retired = 0 ∧ s.branches = 0 := by
  obtain ⟨-, rfl⟩ := resetWith_eq_some_iff.1 start
  exact ⟨rfl, rfl, rfl, rfl⟩

/-- Up to the cycle of the first HALT, every cycle counts its fetch (R125). -/
theorem CommitPath.fetched_of_no_halt (run : CommitPath n p) (start : resetWith image regs = some (p 0)) {h : Nat}
    (no_halt : ∀ k, k < h → opOf (fetchedWord (p k)) ≠ .halt) : ∀ k, k ≤ n → k ≤ h + 1 → (p k).fetched = k
  | 0, _, _ => by
    obtain ⟨-, zero, -⟩ := counters_of_resetWith start
    exact zero
  | k + 1, hkn, hkh => by
    have not_in_flight := run.haltInFlight_of_le start no_halt (k := k) (by omega) (by omega)
    rw [run.next hkn, committed_fetched, not_in_flight, if_neg Bool.false_ne_true, run.fetched_of_no_halt start no_halt k (by omega) (by omega)]

/-- Four cycles on, a run from reset has retired the words fetched so far that retire (R133, R136). -/
theorem CommitPath.retired_eq_countP (run : CommitPath n p) (start : resetWith image regs = some (p 0)) {k : Nat} (hk : k + 4 ≤ n) :
    (p (k + 4)).retired = (List.range k).countP fun j => retires (fetchedWord (p j)) := by
  obtain ⟨-, -, zero, -⟩ := counters_of_resetWith start
  have counts (j : Nat) (hj : j < n) :
      (p (j + 1)).retired = if retires (pipeWord p j) then (p j).retired + 1 else (p j).retired := by
    obtain ⟨-, -, -, at_wb⟩ := run.latches_eq_pipeWord start j hj.le
    rw [run.next hj, committed_retired, at_wb]
  have noops (i : Nat) (hi : i < 4) : retires (pipeWord p i) = false := by
    rw [pipeWord_of_lt p hi]
    decide
  rw [eq_countP_range (f := fun k => (p k).retired) zero counts (k + 4) hk, countP_range_add noops]
  simp only [pipeWord_add_four]

/-- Three cycles on, a run from reset has counted the BEQs fetched so far whose result was not 0 (R131, R136). -/
theorem CommitPath.branches_eq_countP (run : CommitPath n p) (start : resetWith image regs = some (p 0)) {k : Nat} (hk : k + 3 ≤ n) :
    (p (k + 3)).branches =
      (List.range k).countP fun j => opOf (fetchedWord (p j)) == .beq && (p (j + 3)).exmem.aluResult != 0 := by
  obtain ⟨-, -, -, zero⟩ := counters_of_resetWith start
  have counts (j : Nat) (hj : j < n) :
      (p (j + 1)).branches =
        if opOf (pipeWord p (j + 1)) == .beq && (p j).exmem.aluResult != 0 then (p j).branches + 1 else (p j).branches := by
    obtain ⟨-, -, at_mem, -⟩ := run.latches_eq_pipeWord start j hj.le
    rw [run.next hj, committed_branches, brTaken, branchTaken, at_mem]
  have noops (i : Nat) (hi : i < 3) : (opOf (pipeWord p (i + 1)) == .beq && (p i).exmem.aluResult != 0) = false := by
    rw [pipeWord_of_lt p (by omega)]
    exact Bool.false_and _
  rw [eq_countP_range (f := fun k => (p k).branches) zero counts (k + 3) hk, countP_range_add noops]
  simp only [Nat.add_assoc, Nat.reduceAdd, pipeWord_add_four]

end

/-- Every state of a run from reset meets the invariant. -/
theorem CommitPath.inv {n : Nat} {p : Nat → State} (h : CommitPath n p) (start : Inv (p 0)) : ∀ k, k ≤ n → Inv (p k)
  | 0, _ => start
  | k + 1, hk => by
    obtain ⟨-, stepped, -⟩ := h k hk
    exact stepKeepsTheInvariant _ _ (h.inv start k (by omega)) stepped

/-- The cycle of a word other than a BEQ in EX/MEM takes no branch (R123, R131). -/
theorem Commits.no_branch {s t : State} (h : Commits s t) (hop : opOf s.exmem.instr ≠ .beq) :
    t.pc = s.pc + 1 ∧ t.branches = s.branches := by
  obtain ⟨-, -, -, rfl⟩ := (commits_iff s t).1 h
  have not_taken : ¬brTaken s = true := fun taken => hop ((brTaken_iff s).1 taken).1
  rw [committed_pc, committed_branches, if_neg not_taken, if_neg not_taken, incPc_eq_add_one]
  exact ⟨rfl, rfl⟩

/-! ### The statements -/

/-- Settles O47: the HALT of slot `h` is in EX/MEM in cycle `h + 3`, where it takes no branch, and in MEM/WB in cycle `h + 4`, where it stops the machine. -/
theorem haltedRunTotals : Obligations.HaltedRunTotals := by
  intro image regs p h start run no_halt is_halt
  obtain ⟨-, -, at_mem, -⟩ := run.latches_eq_pipeWord start (h + 3) (by omega)
  obtain ⟨-, -, -, at_wb⟩ := run.latches_eq_pipeWord start (h + 4) le_rfl
  rw [pipeWord_add_four] at at_mem at_wb
  have last := run (h + 3) (by omega)
  obtain ⟨next_pc, same_branches⟩ := last.no_branch (by rw [at_mem, is_halt]; decide)
  obtain ⟨no_cycles, -⟩ := counters_of_resetWith start
  refine ⟨haltMachine (p (h + 4)), step_of_halt last.running (at_wb ▸ is_halt), rfl, ?cycles, ?fetched, ?retired, ?branches, ?mispreds,
    next_pc⟩
  case cycles =>
    have counted := run.cycles (h + 4) le_rfl
    rwa [no_cycles, Nat.zero_add] at counted
  case fetched =>
    obtain ⟨at_id, -⟩ := (run h (by omega)).latches_shift
    have behind := (run.shift (h + 1)).fetched_of_halt_ifid (by omega) (by rw [Nat.zero_add, at_id, is_halt])
    rw [Nat.zero_add, Nat.add_comm 3] at behind
    exact behind.trans (run.fetched_of_no_halt start no_halt (h + 1) (by omega) le_rfl)
  case retired => exact congrArg (· + 1) (run.retired_eq_countP start le_rfl)
  case branches => exact same_branches.trans (run.branches_eq_countP start (by omega))
  case mispreds => exact (run.inv (inv_of_resetWith start) (h + 4) le_rfl).mispreds_zero

/-- Settles O44: the value stands from the last writeback on, and decode reads it. -/
theorem registerReadSeesLastWriteback : Obligations.RegisterReadSeesLastWriteback := by
  intro n p r h
  obtain ⟨reads_a, reads_b⟩ := (h n n.lt_succ_self).operands_of_ifid r
  refine ⟨fun no_writer => ?_, fun j hj writes no_later_writer => ?_, reads_a, reads_b⟩
  · exact h.regRead_of_no_writeback n.zero_le n.le_succ fun k _ hk => no_writer k hk
  · calc regRead (p n).reg r
      _ = regRead (p (j + 1)).reg r := h.regRead_of_no_writeback hj n.le_succ no_later_writer
      _ = (p j).memwb.writeData := by rw [(h j (by omega)).regRead_reg, if_pos writes]

/-- Settles O45: the destination keeps its value until the ADD's writeback, three cycles on, and the fourth reader is decoded after it. -/
theorem readersWithinThreeSlotsSeeTheOldValue : Obligations.ReadersWithinThreeSlotsSeeTheOldValue := by
  intro p a b c r h hw names_r at_ex at_mem at_wb
  obtain ⟨add_effect, -⟩ := aluInstructionNetEffect p a b c (h.mono (by decide))
  obtain ⟨hc, written, -⟩ := add_effect hw
  have sum : regRead (p 4).reg r = regRead (p 0).reg a + regRead (p 0).reg b := by
    simp only [regRead, written, names_r, Vector.getElem_set_self]
  refine ⟨fun k _ hk => ?_, ?_⟩
  · rw [← h.regRead_of_no_older_writer (by decide) at_ex at_mem at_wb hk]
    exact (h k (by omega)).operands_of_ifid r
  · rw [← sum]
    exact (h 4 (by decide)).operands_of_ifid r

/-- Settles O50: reset meets the invariant, and every tick keeps it. -/
theorem everyRunMeetsTheInvariant : Obligations.EveryRunMeetsTheInvariant := fun _ _ n s t start run =>
  ticks_induction stepKeepsTheInvariant n s t (inv_of_resetWith start) run

/-- Settles O52. -/
theorem resetRefusesBadImages : Obligations.ResetRefusesBadImages := fun image regs =>
  (resetWith_eq_none_iff image regs).trans (not_imageOk_iff image)

end Sys2Proof.Machine
end
